-- ==== Sys2Proof/Word.lean ====
section
/-! DEFINITION. The words of X10ENC: the 16-bit word of requests, commands and ROM entries, the 8-bit character code
of the assembler, the 40-bit frame, and the pair of line levels. -/

namespace Sys2Proof

/-- A 16-bit word: a request word, a command word, a ROM pattern (R6, R30). -/
abbrev Word := BitVec 16

/-- An 8-bit character code of a token (R7). -/
abbrev Char8 := BitVec 8

/-- The 40-bit frame (R54). -/
abbrev FrameWord := BitVec 40

/-- A line pair `(RTS, DTR)`; `true` is asserted (R7, R12, D15). -/
structure Lines where
  rts : Bool
  dtr : Bool
  deriving DecidableEq, Repr

/-- `ceil(log2 n)`, by halving upwards at most `fuel` times. -/
def ceilLog2Within : Nat → Nat → Nat
  | 0, _ => 0
  | fuel + 1, n => if n ≤ 1 then 0 else ceilLog2Within fuel ((n + 1) / 2) + 1

/-- The width of the phase timer, `ceil(log2(PHASE_TICKS))` bits: 6 for 35 cycles, none for 1 (R15, R151). -/
def timerWidth (ticks : Nat) : Nat := ceilLog2Within ticks ticks

end Sys2Proof
end

