-- ==== Sys2Proof/Config.lean ====
section
/-! DEFINITION. What is fixed for the machine: the functions and ROM spaces, and the parameters the spec takes as
arguments, with what every admissible choice satisfies. None of it is state (R23). The values this hardware takes are in
Machine/Tables.lean. The spec leaves no instruction result open, so there is no free value here. -/

namespace Sys2Proof

/-- The four functions, in the order the source lists them (R2, R46). -/
inductive FunctionCode where
  | switchOn
  | switchOff
  | bright
  | dim
  deriving DecidableEq, Repr

/-- The three read-only address spaces (R21). -/
inductive RomSpace where
  | house
  | unit
  | func
  deriving DecidableEq, Repr

namespace Config

/-- The parameters of the block that a claim may quantify over (R6, R23, R69). -/
structure Params where
  /-- Clock cycles per phase, `PHASE_TICKS`; any integer from 1 on is admitted (D2). -/
  phaseTicks : Nat
  /-- `HOUSE_ROM` (R66, R69). -/
  houseRom : Vector Word 16
  /-- `UNIT_ROM` (R67, R69). -/
  unitRom : Vector Word 16
  /-- `IDLE_LINES`, the lines while no send is in progress (D11, R136). -/
  idleLines : Lines
  /-- `D_TOL`, the tolerated deviation of a real phase from `D`, each way, in milliseconds; no rule of the step reads it
  (R123, D9, U6; log 17). -/
  toleranceMs : Rat
  deriving DecidableEq, Repr

/-- The hold time `D` of a phase in milliseconds (R6, R113). -/
def holdMs : Nat := 35

/-- `T_CLK` in milliseconds, the period for which `PHASE_TICKS * T_CLK = D` (R6, R162, D2; log 17). -/
def clockPeriodMs (p : Params) : Rat := (holdMs : Rat) / (p.phaseTicks : Rat)

/-- A real phase of `ms` milliseconds meets the spec (R123); it appears in no rule of the step. -/
def phaseInTolerance (p : Params) (ms : Rat) : Prop :=
  (holdMs : Rat) - p.toleranceMs ≤ ms ∧ ms ≤ (holdMs : Rat) + p.toleranceMs

/-- The house table is not numerically monotonic in letter order, in neither direction (R65, R69). -/
def NotMonotonic (rom : Vector Word 16) : Prop :=
  (∃ i j : Fin 16, i < j ∧ rom[j] < rom[i]) ∧ (∃ i j : Fin 16, i < j ∧ rom[i] < rom[j])

/-- What every admissible choice of parameters satisfies: the seven equations the source prints, the qualitative
statement on the house table, a phase of at least one cycle, one of the two idle levels (R6, R69, R136). -/
structure Admissible (p : Params) : Prop where
  ticks : 1 ≤ p.phaseTicks
  houseA : p.houseRom[0] = 0x6000#16
  houseC : p.houseRom[2] = 0x4000#16
  houseP : p.houseRom[15] = 0x3000#16
  unit1 : p.unitRom[0] = 0x0000#16
  unit9 : p.unitRom[8] = 0x0400#16
  unit12 : p.unitRom[11] = 0x0400#16
  unit16 : p.unitRom[15] = 0x0458#16
  notMonotonic : NotMonotonic p.houseRom
  idle : p.idleLines = ⟨false, false⟩ ∨ p.idleLines = ⟨true, true⟩

end Config

end Sys2Proof
end

