-- ==== Sys2Proof/Syntax.lean ====
section
/-! DEFINITION. The instructions of X10ENC, one constructor per row of the opcode table (R51, R91 to R94). -/

namespace Sys2Proof

/-- A request by its operation. An index is held as the 5-bit field of the request word (R45), so that the
out-of-range indices 16 to 31 exist and are refused (R33, D3); `Instr.wellFormed` says which are in range. -/
inductive Instr where
  /-- ON: switch the addressed unit on (R91). -/
  | switchOn (house unit : BitVec 5)
  /-- OFF: switch the addressed unit off (R92). -/
  | switchOff (house unit : BitVec 5)
  /-- BRIGHT: brighten the unit the receiver last addressed in the house (R93). -/
  | bright (house : BitVec 5)
  /-- DIM: dim the unit the receiver last addressed in the house (R94). -/
  | dim (house : BitVec 5)
  deriving DecidableEq, Repr

end Sys2Proof
end

