-- ==== Sys2Proof/WellFormed.lean ====
section
/-! DEFINITION. When an instruction is well-formed: each of its indices lies inside its ROM (R33, R47, R48). -/

namespace Sys2Proof

/-- "index ∈ [0,16)" (R33). -/
def indexInRange (index : BitVec 5) : Bool := decide (index.toNat < 16)

/-- House index in range, and unit index in range where the operation names a unit (R33, R91 to R94). -/
def Instr.wellFormed : Instr → Bool
  | .switchOn house unit => indexInRange house && indexInRange unit
  | .switchOff house unit => indexInRange house && indexInRange unit
  | .bright house => indexInRange house
  | .dim house => indexInRange house

end Sys2Proof
end

