-- ==== Sys2Proof/Decode.lean ====
section
/-! DEFINITION. The request word: its fields (R45), the decoder, total on all 65536 words and refusing by name (R50,
R52, R141), the encoder (R60), the triple form of a request, and the opcode map (R51). -/

namespace Sys2Proof

/-- Why a request word is Invalid: the sub-causes (a) to (f) of R141. They are the spec's labels, not visible in the
hardware, and not ranked (R145; log 13). -/
inductive InvalidCause where
  /-- (a) `RSV != 0`. -/
  | reservedBits
  /-- (b) house index 16 or more. -/
  | houseRange
  /-- (c) ON or OFF without a unit. -/
  | unitMissing
  /-- (d) ON or OFF with a unit index of 16 or more. -/
  | unitRange
  /-- (e) BRIGHT or DIM with a unit. -/
  | unitForbidden
  /-- (f) BRIGHT or DIM without a unit and with stray `UNIT` bits. -/
  | strayUnitBits
  deriving DecidableEq, Repr

/-- The source's triple (house, unit or none, function), with indices in range (R9, R50). -/
structure Triple where
  house : BitVec 4
  unit : Option (BitVec 4)
  function : FunctionCode
  deriving DecidableEq, Repr

/-! ### Fields of the request word (R45) -/

/-- `FN = REQ[15:14]`. -/
def reqFn (w : Word) : BitVec 2 := w.extractLsb' 14 2

/-- `UV = REQ[13]`. -/
def reqUv (w : Word) : Bool := w.getLsbD 13

/-- `UNIT = REQ[12:8]`. -/
def reqUnit (w : Word) : BitVec 5 := w.extractLsb' 8 5

/-- `RSV = REQ[7:5]`. -/
def reqRsv (w : Word) : BitVec 3 := w.extractLsb' 5 3

/-- `HOUSE = REQ[4:0]`. -/
def reqHouse (w : Word) : BitVec 5 := w.extractLsb' 0 5

/-- `{FN, UV, UNIT, 0b000, HOUSE}` (R60). -/
def reqWord (fn : BitVec 2) (uv : Bool) (unit house : BitVec 5) : Word :=
  fn ++ BitVec.ofBool uv ++ unit ++ 0#3 ++ house

/-- The index of a function: its `FN` value and its place in `FUNC_ROM` (R46, R73). -/
def FunctionCode.index : FunctionCode → Nat
  | .switchOn => 0
  | .switchOff => 1
  | .bright => 2
  | .dim => 3

/-- The `FN` field of a function (R46). -/
def FunctionCode.field (f : FunctionCode) : BitVec 2 := BitVec.ofNat 2 f.index

/-- The function an `FN` field names; all four values are used (R46). -/
def functionOfField (fn : BitVec 2) : FunctionCode :=
  match fn.toNat with
  | 0 => .switchOn
  | 1 => .switchOff
  | 2 => .bright
  | _ => .dim

/-- ON and OFF name a unit, BRIGHT and DIM do not (R47, R50, R81). -/
def FunctionCode.namesUnit : FunctionCode → Bool
  | .switchOn => true
  | .switchOff => true
  | .bright => false
  | .dim => false

/-! ### The decoder -/

/-- Every sub-cause of R141 that holds of the word, in the table's order. -/
def invalidCauses (w : Word) : List InvalidCause :=
  let unitOp := (functionOfField (reqFn w)).namesUnit
  (if reqRsv w = 0 then [] else [.reservedBits]) ++
  (if indexInRange (reqHouse w) then [] else [.houseRange]) ++
  (if unitOp && !reqUv w then [.unitMissing] else []) ++
  (if unitOp && reqUv w && !indexInRange (reqUnit w) then [.unitRange] else []) ++
  (if !unitOp && reqUv w then [.unitForbidden] else []) ++
  (if !unitOp && !reqUv w && reqUnit w != 0 then [.strayUnitBits] else [])

/-- The instruction a word's fields name, before any check. -/
def instrOfFields (fn : FunctionCode) (house unit : BitVec 5) : Instr :=
  match fn with
  | .switchOn => .switchOn house unit
  | .switchOff => .switchOff house unit
  | .bright => .bright house
  | .dim => .dim house

/-- The decoder: the instruction of a valid request word, or every reason why the word is Invalid (R50, R52, R141). -/
def decode (w : Word) : Except (List InvalidCause) Instr :=
  match invalidCauses w with
  | [] => .ok (instrOfFields (functionOfField (reqFn w)) (reqHouse w) (reqUnit w))
  | causes => .error causes

/-- `DECODE` as R50 writes it: a triple or Invalid, the tests in R50's order. -/
def decodeTriple (w : Word) : Option Triple :=
  if reqRsv w ≠ 0 then none
  else if 16 ≤ (reqHouse w).toNat then none
  else if (functionOfField (reqFn w)).namesUnit then
    if reqUv w = false then none
    else if 16 ≤ (reqUnit w).toNat then none
    else some ⟨(reqHouse w).setWidth 4, some ((reqUnit w).setWidth 4), functionOfField (reqFn w)⟩
  else if reqUv w = true then none
  else if reqUnit w ≠ 0 then none
  else some ⟨(reqHouse w).setWidth 4, none, functionOfField (reqFn w)⟩

/-- The instruction of a request whose bits are `w`, numbered as the opcode table numbers them. A request word has one
length, 16 bits (R56): a longer one is refused (log 18). -/
def decodeTableWord (nbits w : Nat) : Option Instr :=
  if nbits ≤ 16 then
    match decode (BitVec.ofNat 16 (w % 2 ^ nbits)) with
    | .ok i => some i
    | .error _ => none
  else none

/-! ### The encoder -/

/-- The request word of an instruction (R45, R60). An out-of-range index keeps its fifth bit, so that the word is
refused (R52 (b), (d)). -/
def encode : Instr → Word
  | .switchOn house unit => reqWord FunctionCode.switchOn.field true unit house
  | .switchOff house unit => reqWord FunctionCode.switchOff.field true unit house
  | .bright house => reqWord FunctionCode.bright.field false 0 house
  | .dim house => reqWord FunctionCode.dim.field false 0 house

/-- `PACK` (R60). -/
def pack (t : Triple) : Word :=
  match t.unit with
  | some unit => reqWord t.function.field true (unit.setWidth 5) (t.house.setWidth 5)
  | none => reqWord t.function.field false 0 (t.house.setWidth 5)

/-- The two admitted shapes of a triple: ON or OFF with a unit, BRIGHT or DIM without one (R50, R60, R81). -/
def Triple.admitted (t : Triple) : Bool := t.function.namesUnit == t.unit.isSome

/-- The triple of an instruction, each index cut to the four bits of its ROM (R43, R50). -/
def Instr.triple : Instr → Triple
  | .switchOn house unit => ⟨house.setWidth 4, some (unit.setWidth 4), .switchOn⟩
  | .switchOff house unit => ⟨house.setWidth 4, some (unit.setWidth 4), .switchOff⟩
  | .bright house => ⟨house.setWidth 4, none, .bright⟩
  | .dim house => ⟨house.setWidth 4, none, .dim⟩

/-! ### The opcode map (R51) -/

/-- A row of the opcode map: `w` has the form when `w & mask = pattern`. -/
structure OpcodeRow where
  mnemonic : String
  mask : Word
  pattern : Word
  deriving DecidableEq, Repr

/-- `w & mask = match` (R51). -/
def OpcodeRow.matchesWord (r : OpcodeRow) (w : Word) : Bool := w &&& r.mask == r.pattern

/-- The row of an instruction (R51). -/
def Instr.row : Instr → OpcodeRow
  | .switchOn _ _ => ⟨"ON", 0xF0F0#16, 0x2000#16⟩
  | .switchOff _ _ => ⟨"OFF", 0xF0F0#16, 0x6000#16⟩
  | .bright _ => ⟨"BRIGHT", 0xFFF0#16, 0x8000#16⟩
  | .dim _ => ⟨"DIM", 0xFFF0#16, 0xC000#16⟩

/-- The four rows of R51, in the table's order. -/
def opcodeMap : List OpcodeRow :=
  [(Instr.switchOn 0 0).row, (Instr.switchOff 0 0).row, (Instr.bright 0).row, (Instr.dim 0).row]

/-- The 16 indices of an index field that are in range (R47, R48). -/
def validIndices : List (BitVec 5) := (List.range 16).map (BitVec.ofNat 5)

/-- Every well-formed instruction, by operation, then house, then unit (R51). -/
def validInstrs : List Instr :=
  (validIndices.flatMap fun house => validIndices.map (Instr.switchOn house)) ++
  (validIndices.flatMap fun house => validIndices.map (Instr.switchOff house)) ++
  validIndices.map Instr.bright ++
  validIndices.map Instr.dim

end Sys2Proof
end

