-- ==== Sys2Proof/Machine/Tables.lean ====
section
/-! DEFINITION. The code tables: the contents of the three lookup ROMs (R65 to R72), the frame constants (R22) and the
parameters this hardware takes (R6). -/

namespace Sys2Proof.Machine

/-- `HEADER` (R22, R54). -/
def header : Word := 0xD5AA#16

/-- `FOOTER` (R22, R54). -/
def footer : BitVec 8 := 0xAD#8

/-- `FUNC_ROM`: ON, OFF, BRIGHT, DIM; all four words are the source's and no argument of the model (R68, R69, C9; log 8). -/
def funcRom : Vector Word 4 := #v[0x0000, 0x0020, 0x00A8, 0x00B8]

/-- `HOUSE_ROM` as R66 prints it, houses A to P. PRESUMED (by the spec, D10): every entry but A, C and P (log 7; unsafe). -/
def houseRomDefault : Vector Word 16 :=
  #v[0x6000, 0x7000, 0x4000, 0x5000, 0x8000, 0x9000, 0xA000, 0xB000,
     0xE000, 0xF000, 0xC000, 0xD000, 0x0000, 0x1000, 0x2000, 0x3000]

/-- `UNIT_ROM` as R67 prints it, units 1 to 16, with the duplicate of units 9 and 12 (R70). PRESUMED (by the spec, D10):
every entry but units 1, 9, 12 and 16 (log 7; unsafe). -/
def unitRomDefault : Vector Word 16 :=
  #v[0x0000, 0x0010, 0x0008, 0x0018, 0x0040, 0x0050, 0x0048, 0x0058,
     0x0400, 0x0410, 0x0408, 0x0400, 0x0440, 0x0450, 0x0448, 0x0458]

/-- Both lines deasserted, the spec's value of `IDLE_LINES` (R6, D11). -/
def linesOff : Lines := ⟨false, false⟩

/-- The parameters this hardware takes (R6; log 6). -/
def params : Config.Params where
  phaseTicks := 35
  houseRom := houseRomDefault
  unitRom := unitRomDefault
  idleLines := linesOff
  toleranceMs := 1

end Sys2Proof.Machine
end

