-- ==== Sys2Proof/Machine/State.lean ====
section
/-! DEFINITION. The registers of the block (R11 to R18), the state, which is the block with the host's coming cycles, the
outcomes' reasons, and the state after reset (R25). -/

namespace Sys2Proof.Machine

/-- The five states of the sequencer (R13). -/
inductive SeqState where
  /-- No send in progress; `start` is looked at. -/
  | idle
  /-- Reset preamble, first phase. -/
  | rst0
  /-- Reset preamble, second phase. -/
  | rst1
  /-- Mark phase of frame bit `BCNT`. -/
  | mark
  /-- Rest phase of frame bit `BCNT`. -/
  | rest
  deriving DecidableEq, Repr

/-- What the host is assumed never to do (R156, last row; U17). -/
inductive HostMisuse where
  /-- The clock is stopped or glitched. -/
  | clockFault
  /-- `start` or `req` is metastable or changes in mid-cycle. -/
  | inputFault
  /-- Something else drives `rts` or `dtr`. -/
  | outputDriven
  deriving DecidableEq, Repr

/-- What the host does in one cycle: the levels it drives on the three inputs (R10, R27), or a misuse. -/
inductive HostEvent where
  | cycle (rst start : Bool) (req : Word)
  | misuse (m : HostMisuse)
  deriving DecidableEq, Repr

/-- The eight registers of a block whose phases last `ticks` cycles; only the width of `TMR` depends on it (R15, R151). -/
structure Block (ticks : Nat) where
  /-- `ST` (R13). -/
  st : SeqState
  /-- `BCNT`, the index of the frame bit being sent (R14; log 9). -/
  bcnt : Fin 40
  /-- `TMR`, the phase timer, `ceil(log2(PHASE_TICKS))` bits (R15, R151; log 10). -/
  tmr : BitVec (timerWidth ticks)
  /-- `CMD`, the command word (R11). -/
  cmd : Word
  /-- `RTS` (R12). -/
  rts : Bool
  /-- `DTR` (R12). -/
  dtr : Bool
  /-- `DONE` (R17). -/
  done : Bool
  /-- `INV` (R18). -/
  inv : Bool
  deriving DecidableEq, Repr

/-- The state: the registers of this hardware's block, with its 6-bit `TMR`, and the host's coming cycles. -/
structure State extends Block params.phaseTicks where
  /-- The model's own: what the host does in the coming cycles, earliest first. DESIGN CHOICE: a cycle past the end of
  the list is one in which the host drives nothing (log 2, safe; log 3, unsafe). -/
  host : List HostEvent
  deriving DecidableEq, Repr

/-- Why the machine stops. No instruction raises it. -/
inductive Fault where
  /-- Raised by the clock edge alone, on a host action the spec assumes never happens and gives no effect for (R156
  last row, U17; log 4). Safe: no claim is proved about such a run. -/
  | hostMisuse (m : HostMisuse)
  deriving DecidableEq, Repr

/-- Why an instruction has no meaning. -/
inductive Refusal where
  /-- Raised by an arm of `exec` whose instruction has no meaning yet; no arm does. Safe. -/
  | notModelled (mnemonic : String)
  deriving DecidableEq, Repr

/-- The registers after a cycle with `rst = 1`, for any parameters (R25, R160, R136). -/
def Block.reset (p : Config.Params) : Block p.phaseTicks where
  st := .idle
  bcnt := 0
  tmr := 0
  cmd := 0x0000#16
  rts := p.idleLines.rts
  dtr := p.idleLines.dtr
  done := false
  inv := false

/-- The machine right after reset (R25). DESIGN CHOICE: the host's list is empty, since no program is part of the
machine (log 5). -/
def State.reset : State where
  toBlock := Block.reset params
  host := []

end Sys2Proof.Machine
end

