-- ==== Sys2Proof/Machine/Flags.lean ====
section
/-! DEFINITION. The flags and the outputs: BUSY and STATUS as derived values (R16, R19), the output pins (R10), and the
three ways the sticky flags change (R17, R18). -/

namespace Sys2Proof.Machine

variable {ticks : Nat}

/-- `busy = 1` exactly when `ST != IDLE` (R16). -/
def busy (b : Block ticks) : Bool := b.st != .idle

/-- `STATUS = {INV, DONE, BUSY}` (R19). -/
def status (b : Block ticks) : BitVec 3 :=
  BitVec.ofBool b.inv ++ BitVec.ofBool b.done ++ BitVec.ofBool (busy b)

/-- The output pins (R10). -/
structure Outputs where
  rts : Bool
  dtr : Bool
  busy : Bool
  done : Bool
  inv : Bool
  cmdOut : Word
  deriving DecidableEq, Repr

/-- What the pins show (R10, R11, R12, R16 to R18). -/
def outputs (b : Block ticks) : Outputs where
  rts := b.rts
  dtr := b.dtr
  busy := busy b
  done := b.done
  inv := b.inv
  cmdOut := b.cmd

/-- `INV <- 0; DONE <- 0`: the flags of a valid accept (R127). -/
def flagsAccepted (b : Block ticks) : Block ticks := { b with inv := false, done := false }

/-- `INV <- 1; DONE <- 0`: the flags of InvalidCommand (R143). -/
def flagsInvalid (b : Block ticks) : Block ticks := { b with inv := true, done := false }

/-- `DONE <- 1`: the flags at the end of a send (R131). -/
def flagsSent (b : Block ticks) : Block ticks := { b with done := true }

end Sys2Proof.Machine
end

