-- ==== Sys2Proof/Machine/Waveform.lean ====
section
/-! DEFINITION. The framer and the bit transmitter: the frame (R105), the line pairs of a phase (R114, R115), and the
phase lists of a field (R116) and of a send (R126). -/

namespace Sys2Proof.Machine

/-- `FRAME = {HEADER, CMD, FOOTER}` (R54, R105). -/
def frame (cmd : Word) : FrameWord := header ++ cmd ++ footer

/-- `MARK(b)`: RTS alone for a 1, DTR alone for a 0 (R114, R118). -/
def markLines (b : Bool) : Lines := ⟨b, !b⟩

/-- `REST`: both lines asserted (R115). -/
def restLines : Lines := ⟨true, true⟩

/-- The two phases of one bit (R113). -/
def bitPhases (b : Bool) : List Lines := [markLines b, restLines]

/-- The phases of the bits of `v` below place `n`, most significant first. -/
def transmitBelow {w : Nat} (v : BitVec w) : Nat → List Lines
  | 0 => []
  | n + 1 => bitPhases (v.getLsbD n) ++ transmitBelow v n

/-- `TRANSMIT(v, W)`: the phase list of a field (R116). -/
def transmit {w : Nat} (v : BitVec w) : List Lines := transmitBelow v w

/-- `SEND(CMD)`: the 82 phases of a send (R126). -/
def sendPhases (cmd : Word) : List Lines := [linesOff, restLines] ++ transmit (frame cmd)

end Sys2Proof.Machine
end

