-- ==== Sys2Proof/Machine/Ops.lean ====
section
/-! DEFINITION. The named operations: reading a ROM (R31), the host's coming cycles, the line driver (R12), the phases
(R119), raising InvalidCommand (R143), beginning a send (R127), the sequencer's timed step (R128 to R131), presenting a
request (R132, R145) and the hardware reset (R160). -/

namespace Sys2Proof.Machine

/-- `MemRead(space, i)`: the word at index `i`, nothing outside the table (R31, R33). It reads no state and there is
no write (R42; log 14). -/
def memRead (p : Config.Params) (space : RomSpace) (i : Nat) : Option Word :=
  match space with
  | .house => p.houseRom[i]?
  | .unit => p.unitRom[i]?
  | .func => funcRom[i]?

/-! ### The host's coming cycles (R27, R40) -/

/-- A cycle in which the host drives nothing: all inputs 0. -/
def quietEvent : HostEvent := .cycle false false 0x0000#16

/-- What the host does in this cycle. DESIGN CHOICE: nothing, once its list is used up (log 3). -/
def currentEvent (s : State) : HostEvent := s.host.headD quietEvent

/-- The state with this cycle of the host's list used up. -/
def consume (s : State) : State := { s with host := s.host.tail }

/-- The state with its block changed and the host's list as it is. -/
def onBlock (f : Block params.phaseTicks → Block params.phaseTicks) (s : State) : State :=
  { s with toBlock := f s.toBlock }

/-- The state in which the next cycle presents `req` to an idle block; it stands for what a host does (log 5). -/
def placeRequest (req : Word) (s : State) : State :=
  { s with st := .idle, host := .cycle false true req :: s.host.tail }

/-! ### Lines and phases -/

variable {ticks : Nat}

/-- The line pair `(RTS, DTR)` (R12). -/
def lines (b : Block ticks) : Lines := ⟨b.rts, b.dtr⟩

/-- Both line registers in one edge (R12, R152). -/
def setLines (l : Lines) (b : Block ticks) : Block ticks := { b with rts := l.rts, dtr := l.dtr }

/-- `PHASE_TICKS - 1`, the value a phase loads into the timer; the timer's width holds it (R15). -/
def timerLoad (ticks : Nat) : BitVec (timerWidth ticks) := BitVec.ofNat _ (ticks - 1)

/-- Entry to a phase: the sequencer's state, the timer loaded with `PHASE_TICKS - 1`, the phase's lines (R15, R119). -/
def enterPhase (st : SeqState) (l : Lines) (b : Block ticks) : Block ticks :=
  setLines l { b with st := st, tmr := timerLoad ticks }

/-- Bit `BCNT` of the frame of `CMD` (R14, R105). -/
def currentBit (b : Block ticks) : Bool := (frame b.cmd).getLsbD b.bcnt.val

/-- The place below `BCNT`; it is used only where `BCNT != 0` (R14). -/
def bcntPred (k : Fin 40) : Fin 40 := ⟨k.val - 1, by omega⟩

/-- Entry to the mark phase of frame bit `k` (R129, R131). -/
def enterMark (k : Fin 40) (b : Block ticks) : Block ticks :=
  enterPhase .mark (markLines ((frame b.cmd).getLsbD k.val)) { b with bcnt := k }

/-- The end of a send: idle, `DONE`, the lines released (R131, R136). -/
def release (p : Config.Params) (b : Block ticks) : Block ticks :=
  setLines p.idleLines (flagsSent { b with st := .idle })

/-- A phase is held while the timer is not 0, and ends on the cycle in which it is (R15). -/
def holdOr (next b : Block ticks) : Block ticks :=
  if b.tmr ≠ 0 then { b with tmr := b.tmr - 1 } else next

/-- The sequencer's step in a cycle without a request: the timed step of a send (R128 to R131); nothing changes in
`IDLE` (R127). -/
def sequencerStep (p : Config.Params) (b : Block p.phaseTicks) : Block p.phaseTicks :=
  match b.st with
  | .idle => b
  | .rst0 => holdOr (enterPhase .rst1 restLines b) b
  | .rst1 => holdOr (enterMark 39 b) b
  | .mark => holdOr (enterPhase .rest restLines b) b
  | .rest => holdOr (if b.bcnt ≠ 0 then enterMark (bcntPred b.bcnt) b else release p b) b

/-! ### Accepting a request -/

/-- Taking the one exception, `raise InvalidCommand`: `INV <- 1; DONE <- 0` and nothing else (R143). There is no saved
state, no handler and no return operation: the block is ready in the next cycle (R147). -/
def raiseInvalidCommand (b : Block ticks) : Block ticks := flagsInvalid b

/-- The accept of a valid request: `CMD`, the flags and the first phase of the preamble (R127). -/
def beginSend (cmd : Word) (b : Block ticks) : Block ticks :=
  enterPhase .rst0 linesOff (flagsAccepted { b with cmd := cmd })

/-- The accept step with the encoder's result; nothing is Invalid (R127, R95). -/
def accept (e : Option Word) (b : Block ticks) : Block ticks :=
  match e with
  | none => raiseInvalidCommand b
  | some cmd => beginSend cmd b

/-- A cycle in which a request is presented: accepted when idle; lost while busy, when the sequencer takes its timed
step (R132, R145). -/
def present (p : Config.Params) (e : Option Word) (b : Block p.phaseTicks) : Block p.phaseTicks :=
  if busy b then sequencerStep p b else accept e b

/-- A cycle with `rst = 1`, whatever the registers hold (R160, R163). -/
def hardReset (p : Config.Params) (_ : Block p.phaseTicks) : Block p.phaseTicks := Block.reset p

end Sys2Proof.Machine
end

