-- ==== Sys2Proof/Machine/Operands.lean ====
section
/-! DEFINITION. The operands: the ROM words at a request's indices, read by direct index (R43, R55), and their bitwise
OR (R90, R96). -/

namespace Sys2Proof.Machine

/-- The house operand (R43). -/
def houseOperand (p : Config.Params) (house : Nat) : Option Word := memRead p .house house

/-- The unit operand; an absent unit contributes 0x0000 and `UNIT_ROM` is not read (R34, R55, R90). -/
def unitOperand (p : Config.Params) : Option Nat → Option Word
  | none => some 0x0000#16
  | some unit => memRead p .unit unit

/-- The function operand (R43). -/
def functionOperand (p : Config.Params) (f : FunctionCode) : Option Word := memRead p .func f.index

/-- The command word of the indices: house OR unit OR function; Invalid if any index is out of range (R90, R95). -/
def commandWord (p : Config.Params) (house : Nat) (unit : Option Nat) (f : FunctionCode) : Option Word :=
  match houseOperand p house, unitOperand p unit, functionOperand p f with
  | some h, some u, some f => some (h ||| u ||| f)
  | _, _, _ => none

/-- The encoder on a triple (R90). -/
def encodeTriple (p : Config.Params) (t : Triple) : Option Word :=
  commandWord p t.house.toNat (t.unit.map BitVec.toNat) t.function

/-- `ENCODE(REQ)`: the command word of a request word, or Invalid (R90). -/
def encodeCommand (p : Config.Params) (req : Word) : Option Word :=
  match decodeTriple req with
  | none => none
  | some t => encodeTriple p t

end Sys2Proof.Machine
end

