-- ==== Sys2Proof/Machine/Command.lean ====
section
/-! DEFINITION. The four operations. Executing a request is the cycle in which it is presented (R100; log 1): the
operation's command word goes to the accept step, and the send then runs by itself. An index out of range makes the
request Invalid (R90; log 12). -/

namespace Sys2Proof.Machine

/-- ON: `CMD <- HOUSE_ROM[HI] | UNIT_ROM[UI] | FUNC_ROM[0]`, then one send (R91). -/
def execSwitchOn (house unit : BitVec 5) (s : State) : Host.Outcome State Fault Refusal :=
  .next (onBlock (present params (commandWord params house.toNat (some unit.toNat) .switchOn)) s)

/-- OFF: `CMD <- HOUSE_ROM[HI] | UNIT_ROM[UI] | FUNC_ROM[1]`, then one send (R92). -/
def execSwitchOff (house unit : BitVec 5) (s : State) : Host.Outcome State Fault Refusal :=
  .next (onBlock (present params (commandWord params house.toNat (some unit.toNat) .switchOff)) s)

/-- BRIGHT: `CMD <- HOUSE_ROM[HI] | FUNC_ROM[2]`, no unit read, then one send (R93). -/
def execBright (house : BitVec 5) (s : State) : Host.Outcome State Fault Refusal :=
  .next (onBlock (present params (commandWord params house.toNat none .bright)) s)

/-- DIM: `CMD <- HOUSE_ROM[HI] | FUNC_ROM[3]`, no unit read, then one send (R94). -/
def execDim (house : BitVec 5) (s : State) : Host.Outcome State Fault Refusal :=
  .next (onBlock (present params (commandWord params house.toNat none .dim)) s)

end Sys2Proof.Machine
end

