-- ==== Sys2Proof/Machine/Dispatch.lean ====
section
/-! DEFINITION. One arm per instruction. -/

namespace Sys2Proof.Machine

def exec (i : Instr) (s : State) : Host.Outcome State Fault Refusal :=
  match i with
  | .switchOn house unit => Sys2Proof.Machine.execSwitchOn house unit s
  | .switchOff house unit => Sys2Proof.Machine.execSwitchOff house unit s
  | .bright house => Sys2Proof.Machine.execBright house s
  | .dim house => Sys2Proof.Machine.execDim house s

end Sys2Proof.Machine
end

