-- ==== Sys2Proof/Machine/Cycle.lean ====
section
/-! DEFINITION. One clock cycle: the host's inputs are sampled, and reset, the busy sequencer and a request are taken in
that order (R145). -/

namespace Sys2Proof.Machine

/-- A cycle with `start = 1`: a valid word is executed; an Invalid one is presented as such (R100, R127, R143). -/
def requestCycle (req : Word) (s : State) : Host.Outcome State Fault Refusal :=
  match decode req with
  | .ok i => exec i s
  | .error _ => .next (onBlock (present params none) s)

/-- A cycle with the given input levels (R133, R145). -/
def inputCycle (rst start : Bool) (req : Word) (s : State) : Host.Outcome State Fault Refusal :=
  if rst then .next (onBlock (hardReset params) s)
  else if start then requestCycle req s
  else .next (onBlock (sequencerStep params) s)

/-- One rising edge of `clk`: this cycle of the host's list is used up and acted on (R27, R40; log 2). -/
def clockEdge (s : State) : Host.Outcome State Fault Refusal :=
  match currentEvent s with
  | .cycle rst start req => inputCycle rst start req (consume s)
  | .misuse m => .fault (.hostMisuse m)

end Sys2Proof.Machine
end

