-- ==== Sys2Proof/Machine/Step.lean ====
section
/-! DEFINITION. The step: one clock cycle (R27). -/

namespace Sys2Proof.Machine

/-- One step of the machine is one rising edge of `clk` (R27, R133; log 1). -/
def step (s : State) : Host.Outcome State Fault Refusal := clockEdge s

/-- `s` with the request whose bits are `w` on `req`, `start = 1` and the block idle, so that the next step accepts it
(log 5, log 18). -/
def State.withFetchWord (s : State) (nbits w : Nat) : State :=
  placeRequest (BitVec.ofNat 16 (w % 2 ^ nbits)) s

end Sys2Proof.Machine
end

