-- ==== Sys2Proof/Machine/Parser.lean ====
section
/-! DEFINITION. The assembler in front of `req`: from a command token to a triple (R75 to R86), to a request word (R84),
the canonical disassembly (R59), and the host's protocol for a list of requests (R88). -/

namespace Sys2Proof.Machine

/-- A token: a finite sequence of character codes (R75). -/
abbrev Token := List Char8

/-- `upper(c)`: only the 26 ASCII letters are folded (R7, R85). -/
def upper (c : Char8) : Char8 := if 0x61 ≤ c.toNat ∧ c.toNat ≤ 0x7A then c - 0x20#8 else c

/-- One of the ten ASCII digits (R77, R85). -/
def isDigit (c : Char8) : Bool := decide (0x30 ≤ c.toNat ∧ c.toNat ≤ 0x39)

/-- The house index of a token's first character (R73, R76). -/
def houseOfChar (c : Char8) : Option (BitVec 4) :=
  let u := (upper c).toNat
  if 0x41 ≤ u ∧ u ≤ 0x50 then some (BitVec.ofNat 4 (u - 0x41)) else none

/-- The longest leading run of digits (R77). -/
def leadingDigits (rem : Token) : Token := rem.takeWhile isDigit

/-- The natural number a run of digits denotes in base 10, without a bound (R83). -/
def digitsValue (digits : Token) : Nat := digits.foldl (fun v d => 10 * v + (d.toNat - 0x30)) 0

/-- `OFF`. -/
def keywordOff : Token := [0x4F, 0x46, 0x46]

/-- `DIM`. -/
def keywordDim : Token := [0x44, 0x49, 0x4D]

/-- `BRIGHT`. -/
def keywordBright : Token := [0x42, 0x52, 0x49, 0x47, 0x48, 0x54]

/-- The last three characters are `OFF` in either case (R79). -/
def endsInOff (token : Token) : Bool :=
  decide (3 ≤ token.length) && (token.drop (token.length - 3)).map upper == keywordOff

/-- The unit index a run of digits denotes, if it denotes a unit number in [1,16] (R73, R78, R83). -/
def unitOfDigits (digits : Token) : Option (BitVec 4) :=
  if digits ≠ [] ∧ 1 ≤ digitsValue digits ∧ digitsValue digits ≤ 16 then
    some (BitVec.ofNat 4 (digitsValue digits - 1))
  else none

/-- Step 4: the entire remainder against the keywords (R80). -/
def parseKeyword (house : BitVec 4) (rem : Token) : Option Triple :=
  if rem.map upper = keywordDim then some ⟨house, none, .dim⟩
  else if rem.map upper = keywordBright then some ⟨house, none, .bright⟩
  else none

/-- `PARSE(token)`; `none` is Invalid (R82). -/
def parse (token : Token) : Option Triple :=
  match token with
  | [] => none
  | first :: rem =>
    match houseOfChar first with
    | none => none
    | some house =>
      match unitOfDigits (leadingDigits rem) with
      | some unit => some ⟨house, some unit, if endsInOff token then .switchOff else .switchOn⟩
      | none => parseKeyword house rem

/-- `ASSEMBLE(token)`: the request word, or none where the host reports InvalidCommand (R84, D22). -/
def assemble (token : Token) : Option Word := (parse token).map pack

/-- The requests of a list of tokens, in order, Invalid tokens skipped (R88; log 16). -/
def assembleAll (tokens : List Token) : List Word := tokens.filterMap assemble

/-- A number below 100 in decimal, without a leading zero. -/
def decimal (n : Nat) : Token :=
  if n < 10 then [BitVec.ofNat 8 (0x30 + n)] else [BitVec.ofNat 8 (0x30 + n / 10), BitVec.ofNat 8 (0x30 + n % 10)]

/-- The letter of a house index. -/
def houseLetter (house : BitVec 5) : Char8 := BitVec.ofNat 8 (0x41 + house.toNat)

/-- The canonical disassembly of a valid request (R59). -/
def disassemble : Instr → Token
  | .switchOn house unit => houseLetter house :: decimal (unit.toNat + 1) ++ [0x4F, 0x4E]
  | .switchOff house unit => houseLetter house :: decimal (unit.toNat + 1) ++ keywordOff
  | .bright house => houseLetter house :: keywordBright
  | .dim house => houseLetter house :: keywordDim

/-- The host's cycles for one request, presented in a cycle with `busy = 0`, up to the next such cycle (R88, R135). -/
def requestCycles (p : Config.Params) (req : Word) : List HostEvent :=
  .cycle false true req ::
    if (encodeCommand p req).isSome then List.replicate (82 * p.phaseTicks) quietEvent else []

/-- The host's protocol: one cycle of reset, then each request in the first cycle with `busy = 0` (R88, R162). -/
def hostScript (p : Config.Params) (reqs : List Word) : List HostEvent :=
  .cycle true false 0x0000#16 :: reqs.flatMap (requestCycles p)

end Sys2Proof.Machine
end

