-- ==== Sys2Proof/Machine/StepRule.lean ====
section
/-! DEFINITION. The step function as R133 writes it, in one piece and for any parameters, and runs of it. `step` goes
through the decoder and the instructions' meanings; that the two agree is a statement of its own. -/

namespace Sys2Proof.Machine

/-- `STEP(s, rst, start, req)` (R133), with `IDLE_LINES` where R136 puts it. -/
def ruleStep (p : Config.Params) (rst start : Bool) (req : Word) (b : Block p.phaseTicks) : Block p.phaseTicks :=
  if rst then
    { st := .idle, bcnt := 0, tmr := 0, cmd := 0x0000#16, rts := p.idleLines.rts, dtr := p.idleLines.dtr,
      done := false, inv := false }
  else
    match b.st with
    | .idle =>
      if start = false then b
      else
        match encodeCommand p req with
        | none => { b with inv := true, done := false }
        | some e =>
          { b with cmd := e, inv := false, done := false, st := .rst0, tmr := timerLoad p.phaseTicks,
                   rts := false, dtr := false }
    | .rst0 =>
      if b.tmr ≠ 0 then { b with tmr := b.tmr - 1 }
      else { b with st := .rst1, tmr := timerLoad p.phaseTicks, rts := true, dtr := true }
    | .rst1 =>
      if b.tmr ≠ 0 then { b with tmr := b.tmr - 1 }
      else
        { b with st := .mark, bcnt := 39, tmr := timerLoad p.phaseTicks,
                 rts := (frame b.cmd).getLsbD 39, dtr := !(frame b.cmd).getLsbD 39 }
    | .mark =>
      if b.tmr ≠ 0 then { b with tmr := b.tmr - 1 }
      else { b with st := .rest, tmr := timerLoad p.phaseTicks, rts := true, dtr := true }
    | .rest =>
      if b.tmr ≠ 0 then { b with tmr := b.tmr - 1 }
      else if b.bcnt.val ≠ 0 then
        { b with bcnt := bcntPred b.bcnt, st := .mark, tmr := timerLoad p.phaseTicks,
                 rts := (frame b.cmd).getLsbD (b.bcnt.val - 1), dtr := !(frame b.cmd).getLsbD (b.bcnt.val - 1) }
      else { b with st := .idle, done := true, rts := p.idleLines.rts, dtr := p.idleLines.dtr }

/-- The levels of `start` and `req` in a cycle with `rst = 0`. -/
abbrev Inputs := Bool × Word

/-- The block after a list of cycles with `rst = 0`. -/
def runRule (p : Config.Params) (b : Block p.phaseTicks) : List Inputs → Block p.phaseTicks
  | [] => b
  | (start, req) :: rest => runRule p (ruleStep p false start req b) rest

/-- The line pair after each edge of a list of cycles with `rst = 0`. -/
def lineTrace (p : Config.Params) (b : Block p.phaseTicks) : List Inputs → List Lines
  | [] => []
  | (start, req) :: rest =>
    let b' := ruleStep p false start req b
    lines b' :: lineTrace p b' rest

/-- The cycles of a send, `82 * PHASE_TICKS` (R137). -/
def sendCycles (p : Config.Params) : Nat := 82 * p.phaseTicks

/-- The lines of a send, cycle by cycle: every phase for `PHASE_TICKS` cycles (R119, R126). -/
def sendTrace (p : Config.Params) (cmd : Word) : List Lines :=
  (sendPhases cmd).flatMap (List.replicate p.phaseTicks)

/-- The lines from a request's accept to the next cycle in which one can be accepted: the send and one idle cycle, or
one idle cycle for an Invalid request (R135, R143, R167). -/
def requestTrace (p : Config.Params) (req : Word) : List Lines :=
  match encodeCommand p req with
  | none => [p.idleLines]
  | some cmd => sendTrace p cmd ++ [p.idleLines]

/-- A request of a run: the words on `req` in the cycles before it, in which `start = 0`; its own word; and what the
host drives on `start` and `req` afterwards while the block is busy and in the cycle that ends the send (R132, R167). -/
structure RunRequest where
  gap : List Word
  req : Word
  during : List Inputs
  deriving DecidableEq, Repr

/-- A valid request is followed by the cycles of its send, an Invalid one by none (R137). -/
def RunRequest.fits (p : Config.Params) (r : RunRequest) : Prop :=
  r.during.length = if (encodeCommand p r.req).isSome then sendCycles p else 0

/-- The cycles of a request. -/
def RunRequest.inputs (r : RunRequest) : List Inputs :=
  (r.gap.map fun w => (false, w)) ++ (true, r.req) :: r.during

/-- The lines of a request, cycle by cycle: idle in the gap, then the request's own (R167). -/
def RunRequest.trace (p : Config.Params) (r : RunRequest) : List Lines :=
  List.replicate r.gap.length p.idleLines ++ requestTrace p r.req

end Sys2Proof.Machine
end

