-- ==== Sys2Proof/Safety.lean ====
section
/-! DEFINITION. What claims are stated in: the invariant of R26, the phase index of R28, the cycles a send has left
(R135, R138), and the hosts whose runs the spec gives a meaning (R156). -/

namespace Sys2Proof.Machine

/-- The invariant of the block (R26 (a) to (f)), for any parameters; the range of `BCNT` is its type. -/
structure Inv (p : Config.Params) (b : Block p.phaseTicks) : Prop where
  /-- (a) -/
  idleLines : b.st = .idle → lines b = p.idleLines
  /-- (b) -/
  rst0Lines : b.st = .rst0 → lines b = ⟨false, false⟩
  /-- (c) -/
  rst1Lines : b.st = .rst1 → lines b = ⟨true, true⟩
  /-- (c) -/
  restLines : b.st = .rest → lines b = ⟨true, true⟩
  /-- (d) -/
  markLines : b.st = .mark → lines b = ⟨currentBit b, !currentBit b⟩
  /-- (e) -/
  timer : b.tmr.toNat ≤ p.phaseTicks - 1
  /-- (f) -/
  flagsExclusive : ¬ (b.done = true ∧ b.inv = true)
  /-- (f) -/
  flagsIdle : b.done = true ∨ b.inv = true → b.st = .idle

/-- The phase index of a send, 0 to 81; none in `IDLE` (R28). -/
def phaseIndex {ticks : Nat} (b : Block ticks) : Option Nat :=
  match b.st with
  | .idle => none
  | .rst0 => some 0
  | .rst1 => some 1
  | .mark => some (2 + 2 * (39 - b.bcnt.val))
  | .rest => some (3 + 2 * (39 - b.bcnt.val))

/-- The cycles until the send in progress ends; 0 in `IDLE` (R135, R138). -/
def cyclesLeft (p : Config.Params) (b : Block p.phaseTicks) : Nat :=
  match phaseIndex b with
  | none => 0
  | some k => (81 - k) * p.phaseTicks + b.tmr.toNat + 1

/-- The host drives levels and does nothing it is assumed never to do (R156). -/
def HostEvent.proper : HostEvent → Bool
  | .cycle _ _ _ => true
  | .misuse _ => false

/-- A host whose coming cycles are all proper. -/
def ProperHost (s : State) : Prop := ∀ e ∈ s.host, e.proper = true

/-- The host's cycles with `rst = 0` that drive the given levels. -/
def hostOf (inputs : List Inputs) : List HostEvent := inputs.map fun i => .cycle false i.1 i.2

end Sys2Proof.Machine
end

