-- ==== Sys2Proof/Certificates/Slice0/Obligations.lean ====
section
/-! DEFINITION. The statements for the provers, each from the spec's rules. `step` and `exec` are the machine at the
parameters this hardware takes (log 6); a statement over every `p` is about `ruleStep p`, R133 for any parameters. -/

open Sys2Proof Sys2Proof.Machine

/-! ### Encoding -/

/-- R60's first half for instructions, over every operation and every index the encoding admits. -/
def Obligations.DecodeEncodeRoundTrip : Prop :=
  ∀ i : Instr, i.wellFormed = true → decode (encode i) = .ok i

/-- R60's second half for instructions: each valid word has one instruction and no bit of it is dropped. -/
def Obligations.EncodeDecodeRoundTrip : Prop :=
  ∀ (w : Word) (i : Instr), decode w = .ok i → i.wellFormed = true ∧ encode i = w

/-- R60: the fields of `PACK`, and that it is the inverse of `DECODE` on the admitted shapes. -/
def Obligations.PackInvertsDecode : Prop :=
  (∀ t : Triple,
    (pack t).extractLsb' 14 2 = BitVec.ofNat 2 t.function.index ∧
    (pack t).getLsbD 13 = t.unit.isSome ∧
    (pack t).extractLsb' 8 5 = (t.unit.map (BitVec.setWidth 5)).getD 0 ∧
    (pack t).extractLsb' 5 3 = 0 ∧
    (pack t).extractLsb' 0 5 = t.house.setWidth 5) ∧
  (∀ t : Triple, t.admitted = true → decodeTriple (pack t) = some t) ∧
  (∀ (w : Word) (t : Triple), decodeTriple w = some t → pack t = w)

/-- R50: which words are valid, over the bits of the word, and which triple a valid word gives; every other word is
Invalid. -/
def Obligations.DecodeAcceptsExactlyRule50 : Prop :=
  ∀ w : Word,
    ((∃ i, decode w = .ok i) ↔
      w.extractLsb' 5 3 = 0 ∧ (w.extractLsb' 0 5).toNat < 16 ∧
      ((w.extractLsb' 14 2).toNat ≤ 1 → w.getLsbD 13 = true ∧ (w.extractLsb' 8 5).toNat < 16) ∧
      (2 ≤ (w.extractLsb' 14 2).toNat → w.getLsbD 13 = false ∧ w.extractLsb' 8 5 = 0)) ∧
    (∀ i, decode w = .ok i →
      i.triple.house = w.extractLsb' 0 4 ∧
      i.triple.function.index = (w.extractLsb' 14 2).toNat ∧
      i.triple.unit = (if (w.extractLsb' 14 2).toNat ≤ 1 then some (w.extractLsb' 8 4) else none) ∧
      decodeTriple w = some i.triple) ∧
    ((∀ i, decode w ≠ .ok i) → decodeTriple w = none)

/-- R51: the four rows of the opcode map, that a word is valid exactly when it has a row's form and then no other's, and
the count: 544 valid words, 256 ON, 256 OFF, 16 BRIGHT and 16 DIM. -/
def Obligations.OpcodeMapIsExact : Prop :=
  opcodeMap = [⟨"ON", 0xF0F0#16, 0x2000#16⟩, ⟨"OFF", 0xF0F0#16, 0x6000#16⟩,
    ⟨"BRIGHT", 0xFFF0#16, 0x8000#16⟩, ⟨"DIM", 0xFFF0#16, 0xC000#16⟩] ∧
  (∀ (w : Word) (r : OpcodeRow), r ∈ opcodeMap → (w &&& r.mask = r.pattern ↔ ∃ i, decode w = .ok i ∧ i.row = r)) ∧
  (∀ (w : Word) (i : Instr), decode w = .ok i → i.row ∈ opcodeMap) ∧
  (validInstrs.map encode).Nodup ∧ (validInstrs.map encode).length = 544 ∧
  (∀ w : Word, (∃ i, decode w = .ok i) ↔ w ∈ validInstrs.map encode) ∧
  (validInstrs.map fun i => i.row.mnemonic).count "ON" = 256 ∧
  (validInstrs.map fun i => i.row.mnemonic).count "OFF" = 256 ∧
  (validInstrs.map fun i => i.row.mnemonic).count "BRIGHT" = 16 ∧
  (validInstrs.map fun i => i.row.mnemonic).count "DIM" = 16

/-- Words written out from R51's patterns and from the refusals of `95_test_vectors.md` section 3. -/
def Obligations.SpecWordsDecode : Prop :=
  decode 0x2000#16 = .ok (.switchOn 0 0) ∧ decode 0x2B00#16 = .ok (.switchOn 0 11) ∧
  decode 0x6F0F#16 = .ok (.switchOff 15 15) ∧ decode 0x6900#16 = .ok (.switchOff 0 9) ∧
  decode 0x8000#16 = .ok (.bright 0) ∧ decode 0xC002#16 = .ok (.dim 2) ∧
  decode 0x2010#16 = .error [.houseRange] ∧ decode 0x3F00#16 = .error [.unitRange] ∧
  decode 0x0000#16 = .error [.unitMissing] ∧ decode 0xE002#16 = .error [.unitForbidden] ∧
  decode 0x8100#16 = .error [.strayUnitBits] ∧
  decode 0xFFFF#16 = .error [.reservedBits, .houseRange, .unitForbidden]

/-! ### The step -/

/-- When the request presented in this cycle decodes, the step is that instruction's execution on the state with this
cycle of the host's list used up (log 1, log 2); `withFetchWord` presents a word to an idle block (log 5). -/
def Obligations.StepRunsDecodedInstruction : Prop :=
  (∀ (s : State) (req : Word) (i : Instr), currentEvent s = .cycle false true req → decode req = .ok i →
    step s = exec i { s with host := s.host.tail }) ∧
  (∀ (s : State) (w : Nat) (i : Instr), decode (BitVec.ofNat 16 w) = .ok i →
    step (s.withFetchWord 16 w) = exec i { s with st := .idle, host := s.host.tail })

/-- R133: the step, which goes through the decoder and the instructions' meanings, is `STEP` as R133 writes it. -/
def Obligations.StepIsRule133 : Prop :=
  ∀ (s : State) (rst start : Bool) (req : Word), currentEvent s = .cycle rst start req →
    step s = .next { toBlock := ruleStep params rst start req s.toBlock, host := s.host.tail }

/-- Executing any instruction in any state, idle or busy, is the clock cycle in which its request word is presented
(R100; log 1), ill-formed terms included (log 12). -/
def Obligations.ExecIsItsWordPresented : Prop :=
  ∀ (i : Instr) (s : State), exec i s = .next { s with toBlock := ruleStep params false true (encode i) s.toBlock }

/-- R25: the eight registers and `busy` after reset. -/
def Obligations.ResetState : Prop :=
  State.reset.st = .idle ∧ State.reset.rts = false ∧ State.reset.dtr = false ∧ State.reset.cmd = 0x0000#16 ∧
  State.reset.bcnt = 0 ∧ State.reset.tmr = 0 ∧ State.reset.done = false ∧ State.reset.inv = false ∧
  busy State.reset.toBlock = false

/-- R160: a cycle with `rst = 1` in any state, reached or not (R161), in mid-send or not (R163). -/
def Obligations.HardwareResetClearsEveryState : Prop :=
  ∀ (s : State) (start : Bool) (req : Word), currentEvent s = .cycle true start req →
    step s = .next { st := .idle, bcnt := 0, tmr := 0, cmd := 0x0000#16, rts := false, dtr := false,
                     done := false, inv := false, host := s.host.tail }

/-- R127: the accept step; and that in a cycle with `rst = 0` `start` and `req` are read, and `CMD` is written, nowhere
else. For a cycle with `rst = 1` see HardwareResetClearsEveryState. -/
def Obligations.AcceptStep : Prop :=
  ∀ (s : State) (start : Bool) (req : Word), currentEvent s = .cycle false start req →
    (s.st = .idle → start = false → step s = .next { s with host := s.host.tail }) ∧
    (s.st = .idle → start = true → encodeCommand params req = none →
      step s = .next { s with inv := true, done := false, host := s.host.tail }) ∧
    (∀ e, s.st = .idle → start = true → encodeCommand params req = some e →
      step s = .next { s with cmd := e, inv := false, done := false, st := .rst0, tmr := BitVec.ofNat _ (params.phaseTicks - 1),
                              rts := false, dtr := false, host := s.host.tail }) ∧
    (s.st ≠ .idle → ∀ (start' : Bool) (req' : Word),
      step { s with host := .cycle false start' req' :: s.host.tail } = step s) ∧
    (s.st ≠ .idle → ∀ t, step s = .next t → t.cmd = s.cmd)

/-- R128 to R131: every timed step of a send, for every position, timer value and command, and whatever the host drives
on `start` and `req`. -/
def Obligations.SequencerTimedStep : Prop :=
  ∀ (s : State) (start : Bool) (req : Word), currentEvent s = .cycle false start req →
    (s.st ≠ .idle → s.tmr ≠ 0 → step s = .next { s with tmr := s.tmr - 1, host := s.host.tail }) ∧
    (s.st = .rst0 → s.tmr = 0 →
      step s = .next { s with st := .rst1, tmr := BitVec.ofNat _ (params.phaseTicks - 1), rts := true, dtr := true,
                              host := s.host.tail }) ∧
    (s.st = .rst1 → s.tmr = 0 →
      step s = .next { s with st := .mark, bcnt := 39, tmr := BitVec.ofNat _ (params.phaseTicks - 1), rts := true, dtr := false,
                              host := s.host.tail }) ∧
    (s.st = .mark → s.tmr = 0 →
      step s = .next { s with st := .rest, tmr := BitVec.ofNat _ (params.phaseTicks - 1), rts := true, dtr := true,
                              host := s.host.tail }) ∧
    (∀ b : Fin 40, s.st = .rest → s.tmr = 0 → s.bcnt.val = b.val + 1 →
      step s = .next { s with bcnt := b, st := .mark, tmr := BitVec.ofNat _ (params.phaseTicks - 1),
                              rts := (0xD5AA#16 ++ s.cmd ++ 0xAD#8).getLsbD b.val,
                              dtr := !(0xD5AA#16 ++ s.cmd ++ 0xAD#8).getLsbD b.val, host := s.host.tail }) ∧
    (s.st = .rest → s.tmr = 0 → s.bcnt.val = 0 →
      step s = .next { s with st := .idle, done := true, rts := false, dtr := false, host := s.host.tail })

/-- R143: the effect of InvalidCommand, for every word the decoder refuses: two flags and nothing else. -/
def Obligations.InvalidCommandSetsOnlyFlags : Prop :=
  ∀ (s : State) (req : Word), currentEvent s = .cycle false true req → s.st = .idle → (∀ i, decode req ≠ .ok i) →
    step s = .next { s with inv := true, done := false, host := s.host.tail }

/-- The machine stops on what the host is assumed never to do, and on nothing else; it refuses nothing. The stop is the
model's choice for the last row of R156's table, "assumed never" (log 4). -/
def Obligations.StopsOnlyOnHostMisuse : Prop :=
  ∀ s : State,
    (∀ m, currentEvent s = .misuse m → step s = .fault (.hostMisuse m)) ∧
    (∀ f, step s = .fault f → ∃ m, currentEvent s = .misuse m ∧ f = .hostMisuse m) ∧
    (∀ r, step s ≠ .refused r)

/-- Past the end of its list the host drives nothing: the step is a cycle with `rst = 0` and `start = 0`. This is the
model's choice (log 3). -/
def Obligations.SilentHostCycle : Prop :=
  ∀ s : State, s.host = [] → step s = .next { s with toBlock := ruleStep params false false 0x0000#16 s.toBlock }

/-! ### The four operations -/

/-- R91's pseudocode and flags at accept: ON on every in-range house and unit, in every idle state; nothing else
changes. -/
def Obligations.SwitchOnResult : Prop :=
  ∀ (house unit : BitVec 5) (s : State) (hh : house.toNat < 16) (hu : unit.toNat < 16), s.st = .idle →
    exec (.switchOn house unit) s =
      .next { s with cmd := params.houseRom[house.toNat] ||| params.unitRom[unit.toNat], inv := false, done := false,
                     st := .rst0, tmr := BitVec.ofNat _ (params.phaseTicks - 1), rts := false, dtr := false }

/-- R92's pseudocode and flags at accept: OFF on every in-range house and unit, in every idle state; nothing else
changes. -/
def Obligations.SwitchOffResult : Prop :=
  ∀ (house unit : BitVec 5) (s : State) (hh : house.toNat < 16) (hu : unit.toNat < 16), s.st = .idle →
    exec (.switchOff house unit) s =
      .next { s with cmd := params.houseRom[house.toNat] ||| params.unitRom[unit.toNat] ||| 0x0020#16, inv := false,
                     done := false, st := .rst0, tmr := BitVec.ofNat _ (params.phaseTicks - 1), rts := false, dtr := false }

/-- R93's pseudocode and flags at accept: BRIGHT on every in-range house, in every idle state; no unit pattern enters;
nothing else changes. -/
def Obligations.BrightResult : Prop :=
  ∀ (house : BitVec 5) (s : State) (hh : house.toNat < 16), s.st = .idle →
    exec (.bright house) s =
      .next { s with cmd := params.houseRom[house.toNat] ||| 0x00A8#16, inv := false, done := false,
                     st := .rst0, tmr := BitVec.ofNat _ (params.phaseTicks - 1), rts := false, dtr := false }

/-- R94's pseudocode and flags at accept: DIM on every in-range house, in every idle state; no unit pattern enters;
nothing else changes. -/
def Obligations.DimResult : Prop :=
  ∀ (house : BitVec 5) (s : State) (hh : house.toNat < 16), s.st = .idle →
    exec (.dim house) s =
      .next { s with cmd := params.houseRom[house.toNat] ||| 0x00B8#16, inv := false, done := false,
                     st := .rst0, tmr := BitVec.ofNat _ (params.phaseTicks - 1), rts := false, dtr := false }

/-- An instruction with an index out of range, executed in an idle state, raises InvalidCommand: the encoder's defensive
check (R90; log 12). -/
def Obligations.OutOfRangeIndexIsInvalid : Prop :=
  ∀ (i : Instr) (s : State), i.wellFormed = false → s.st = .idle →
    exec i s = .next { s with inv := true, done := false }

/-- R90: the encoder for any tables, and its Invalid result. -/
def Obligations.EncoderIsOrOfPatterns : Prop :=
  ∀ (p : Config.Params) (req : Word),
    (decodeTriple req = none → encodeCommand p req = none) ∧
    (∀ house unit, decodeTriple req = some ⟨house, some unit, .switchOn⟩ →
      encodeCommand p req = some (p.houseRom[house.toNat] ||| p.unitRom[unit.toNat] ||| 0x0000#16)) ∧
    (∀ house unit, decodeTriple req = some ⟨house, some unit, .switchOff⟩ →
      encodeCommand p req = some (p.houseRom[house.toNat] ||| p.unitRom[unit.toNat] ||| 0x0020#16)) ∧
    (∀ house, decodeTriple req = some ⟨house, none, .bright⟩ →
      encodeCommand p req = some (p.houseRom[house.toNat] ||| 0x0000#16 ||| 0x00A8#16)) ∧
    (∀ house, decodeTriple req = some ⟨house, none, .dim⟩ →
      encodeCommand p req = some (p.houseRom[house.toNat] ||| 0x0000#16 ||| 0x00B8#16)) ∧
    (∀ t, decodeTriple req = some t → t.function.namesUnit = t.unit.isSome)

/-- R70: under every admissible table a request for unit 12 and the same request for unit 9 are one request: the same
command, and the same step from every state, so the same frame and the same line trace. -/
def Obligations.UnitTwelveSendsUnitNinesPattern : Prop :=
  ∀ (p : Config.Params) (house : BitVec 5), Config.Admissible p →
    memRead p .unit 8 = some 0x0400#16 ∧ memRead p .unit 11 = some 0x0400#16 ∧
    encodeCommand p (encode (.switchOn house 11)) = encodeCommand p (encode (.switchOn house 8)) ∧
    encodeCommand p (encode (.switchOff house 11)) = encodeCommand p (encode (.switchOff house 8)) ∧
    (∀ (b : Block p.phaseTicks) (rst start : Bool),
      ruleStep p rst start (encode (.switchOn house 11)) b = ruleStep p rst start (encode (.switchOn house 8)) b ∧
      ruleStep p rst start (encode (.switchOff house 11)) b = ruleStep p rst start (encode (.switchOff house 8)) b)

/-- R97: with house A the commands of units 9 and 12 are 0x6400 and 0x6420 under every admissible table; and under the
tables of R66 and R67, whose supplied entries are presumed (log 7), no other two valid requests share a command. -/
def Obligations.OnlyUnitsNineAndTwelveCollide : Prop :=
  (∀ p : Config.Params, Config.Admissible p →
    encodeCommand p (encode (.switchOn 0 8)) = some 0x6400#16 ∧
    encodeCommand p (encode (.switchOn 0 11)) = some 0x6400#16 ∧
    encodeCommand p (encode (.switchOff 0 8)) = some 0x6420#16 ∧
    encodeCommand p (encode (.switchOff 0 11)) = some 0x6420#16) ∧
  (∀ i j : Instr, i.wellFormed = true → j.wellFormed = true →
    encodeCommand params (encode i) = encodeCommand params (encode j) →
    i = j ∨ ∃ house, (i = .switchOn house 8 ∧ j = .switchOn house 11) ∨ (i = .switchOn house 11 ∧ j = .switchOn house 8) ∨
      (i = .switchOff house 8 ∧ j = .switchOff house 11) ∨ (i = .switchOff house 11 ∧ j = .switchOff house 8))

/-- R99: under the tables of R66 to R68, whose supplied entries are presumed (log 7), the patterns of a valid request
share no bit: OR is the sum, and masking the command reads them back. -/
def Obligations.PatternsShareNoBit : Prop :=
  ∀ house unit : Fin 16,
    (∀ f : Fin 2, ∃ cmd,
      encodeCommand params (reqWord (BitVec.ofNat 2 f.val) true (BitVec.ofNat 5 unit.val) (BitVec.ofNat 5 house.val))
        = some cmd ∧
      cmd.toNat = params.houseRom[house].toNat + params.unitRom[unit].toNat + 0x0020 * f.val ∧
      cmd &&& 0xF000#16 = params.houseRom[house] ∧ cmd &&& 0x0458#16 = params.unitRom[unit] ∧
      cmd &&& 0x0020#16 = BitVec.ofNat 16 (0x0020 * f.val)) ∧
    (∀ f : Fin 2, ∃ cmd,
      encodeCommand params (reqWord (BitVec.ofNat 2 (2 + f.val)) false 0 (BitVec.ofNat 5 house.val)) = some cmd ∧
      cmd.toNat = params.houseRom[house].toNat + (0x00A8 + 0x0010 * f.val) ∧
      cmd &&& 0xF000#16 = params.houseRom[house] ∧ cmd &&& 0x00B8#16 = BitVec.ofNat 16 (0x00A8 + 0x0010 * f.val))

/-! ### The tables -/

/-- R31: a ROM read answers the word at its index exactly inside the table, for any tables. -/
def Obligations.RomReadsExactlyInRange : Prop :=
  ∀ (p : Config.Params) (i : Nat),
    ((memRead p .house i).isSome = true ↔ i < 16) ∧ ((memRead p .unit i).isSome = true ↔ i < 16) ∧
    ((memRead p .func i).isSome = true ↔ i < 4) ∧
    (∀ h : i < 16, memRead p .house i = some p.houseRom[i] ∧ memRead p .unit i = some p.unitRom[i]) ∧
    (∀ h : i < 4, memRead p .func i = some funcRom[i])

/-- The contents of the three ROMs; the house entries but A, C, P and the unit entries but 1, 9, 12, 16 are presumed
(log 7). -/
def Obligations.RomContents : Prop :=
  (List.range 16).map (memRead params .house) =
    [some 0x6000#16, some 0x7000#16, some 0x4000#16, some 0x5000#16, some 0x8000#16, some 0x9000#16, some 0xA000#16,
     some 0xB000#16, some 0xE000#16, some 0xF000#16, some 0xC000#16, some 0xD000#16, some 0x0000#16, some 0x1000#16,
     some 0x2000#16, some 0x3000#16] ∧
  (List.range 16).map (memRead params .unit) =
    [some 0x0000#16, some 0x0010#16, some 0x0008#16, some 0x0018#16, some 0x0040#16, some 0x0050#16, some 0x0048#16,
     some 0x0058#16, some 0x0400#16, some 0x0410#16, some 0x0408#16, some 0x0400#16, some 0x0440#16, some 0x0450#16,
     some 0x0448#16, some 0x0458#16] ∧
  (List.range 4).map (memRead params .func) =
    [some 0x0000#16, some 0x0020#16, some 0x00A8#16, some 0x00B8#16]

/-- The parameters this hardware takes satisfy every equation the source prints and its statement on the house table
(R69), whose ascending half rests on presumed entries (log 7), and have an admitted phase length and idle level (R6,
R136). -/
def Obligations.DefaultTablesAreAdmissible : Prop := Config.Admissible params

/-! ### The waveform -/

/-- R105: the fields of the frame and its value as a number, for every command. -/
def Obligations.FrameFields : Prop :=
  ∀ cmd : Word,
    (frame cmd).extractLsb' 24 16 = 0xD5AA#16 ∧ (frame cmd).extractLsb' 8 16 = cmd ∧
    (frame cmd).extractLsb' 0 8 = 0xAD#8 ∧ (frame cmd).toNat = 0xD5AA0000AD ||| (cmd.toNat <<< 8)

/-- R116: the phase list of a field of any width, that a field of fields is sent as their lists in order, and the frame's
three bursts. -/
def Obligations.TransmitIsBitByBit : Prop :=
  (∀ (w : Nat) (v : BitVec w),
    (transmit v).length = 2 * w ∧
    ∀ k, k < w → (transmit v)[2 * k]? = some ⟨v.getLsbD (w - 1 - k), !v.getLsbD (w - 1 - k)⟩ ∧
      (transmit v)[2 * k + 1]? = some ⟨true, true⟩) ∧
  (∀ (w w' : Nat) (a : BitVec w) (b : BitVec w'), transmit (a ++ b) = transmit a ++ transmit b) ∧
  (∀ cmd : Word, transmit (frame cmd) = transmit 0xD5AA#16 ++ transmit cmd ++ transmit 0xAD#8)

/-- R120 and R122 inside a field: consecutive phases differ in exactly one line, and the lines are never both
deasserted. -/
def Obligations.OneLineChangesPerPhase : Prop :=
  ∀ (w : Nat) (v : BitVec w),
    (∀ (k : Nat) (a b : Lines), (transmit v)[k]? = some a → (transmit v)[k + 1]? = some b →
      ((a.rts ≠ b.rts ∧ a.dtr = b.dtr) ∨ (a.rts = b.rts ∧ a.dtr ≠ b.dtr))) ∧
    (∀ l ∈ transmit v, l.rts = true ∨ l.dtr = true)

/-- R126: the 82 phases of a send one by one, and that the first 34 and the last 16 are the same in every send. -/
def Obligations.SendPhaseList : Prop :=
  ∀ cmd : Word,
    (sendPhases cmd).length = 82 ∧ (sendPhases cmd)[0]? = some ⟨false, false⟩ ∧
    (sendPhases cmd)[1]? = some ⟨true, true⟩ ∧
    (∀ k, k < 40 → (sendPhases cmd)[2 + 2 * k]? = some ⟨(frame cmd).getLsbD (39 - k), !(frame cmd).getLsbD (39 - k)⟩ ∧
      (sendPhases cmd)[3 + 2 * k]? = some ⟨true, true⟩) ∧
    (∀ cmd' : Word, (sendPhases cmd).take 34 = (sendPhases cmd').take 34 ∧
      (sendPhases cmd).drop 66 = (sendPhases cmd').drop 66)

/-! ### A send, and runs -/

/-- R135: what the lines and flags are in every cycle of a send, for any parameters and whatever the host drives on
`start` and `req`, and the state in which it ends. -/
def Obligations.SendDrivesItsPhases : Prop :=
  ∀ (p : Config.Params) (b : Block p.phaseTicks) (req cmd : Word) (inputs : List Inputs),
    1 ≤ p.phaseTicks → b.st = .idle → encodeCommand p req = some cmd → inputs.length = 82 * p.phaseTicks →
    (∀ phase tick, phase < 82 → tick < p.phaseTicks →
      let t := runRule p (ruleStep p false true req b) (inputs.take (phase * p.phaseTicks + tick))
      (sendPhases cmd)[phase]? = some (lines t) ∧ busy t = true ∧ t.cmd = cmd ∧ t.done = false ∧ t.inv = false) ∧
    runRule p (ruleStep p false true req b) inputs =
      { b with st := .idle, bcnt := 0, tmr := 0, cmd := cmd, rts := p.idleLines.rts, dtr := p.idleLines.dtr,
               done := true, inv := false }

/-- R135 and R137 of the machine itself: from any idle state a valid request is sent in 2871 steps, each phase for 35 of
them, whatever the host drives on `start` and `req` meanwhile. -/
def Obligations.MachineSendsARequest : Prop :=
  ∀ (s : State) (req cmd : Word) (inputs : List Inputs) (rest : List HostEvent),
    s.st = .idle → s.host = .cycle false true req :: (hostOf inputs ++ rest) →
    encodeCommand params req = some cmd → inputs.length = 2870 →
    (∀ phase tick, phase < 82 → tick < 35 →
      ∃ t, Host.Core.run core (1 + (phase * 35 + tick)) s = .next t ∧ (sendPhases cmd)[phase]? = some (lines t.toBlock) ∧
        busy t.toBlock = true ∧ t.done = false ∧ t.inv = false) ∧
    Host.Core.run core 2871 s =
      .next { s with st := .idle, bcnt := 0, tmr := 0, cmd := cmd, rts := false, dtr := false, done := true, inv := false,
                     host := rest }

/-- A run of the machine with `rst = 0` is a run of R133's step. -/
def Obligations.MachineRunIsRuleRun : Prop :=
  ∀ (s : State) (inputs : List Inputs) (rest : List HostEvent), s.host = hostOf inputs ++ rest →
    Host.Core.run core inputs.length s = .next { toBlock := runRule params s.toBlock inputs, host := rest }

/-- R167 (a) and (b): the lines, cycle by cycle, and the flags of a run over any list of requests, valid or Invalid, with
any idle stretches between and any inputs while busy, for any parameters, from an idle state with the lines idle. -/
def Obligations.RunTraceIsItsSends : Prop :=
  ∀ (p : Config.Params) (b : Block p.phaseTicks) (requests : List RunRequest),
    1 ≤ p.phaseTicks → b.st = .idle → lines b = p.idleLines → (∀ r ∈ requests, r.fits p) →
    lineTrace p b (requests.flatMap RunRequest.inputs) = requests.flatMap (RunRequest.trace p) ∧
    (runRule p b (requests.flatMap RunRequest.inputs)).st = .idle ∧
    (∀ r, requests.getLast? = some r →
      (runRule p b (requests.flatMap RunRequest.inputs)).done = (encodeCommand p r.req).isSome ∧
      (runRule p b (requests.flatMap RunRequest.inputs)).inv = (encodeCommand p r.req).isNone) ∧
    (requests = [] → runRule p b (requests.flatMap RunRequest.inputs) = b)

/-- R134: with `start` held at 1 and a valid word, the block sends again and again, each send followed by one idle
cycle. -/
def Obligations.StartHeldSendsAgain : Prop :=
  ∀ (p : Config.Params) (b : Block p.phaseTicks) (req cmd : Word) (n : Nat),
    1 ≤ p.phaseTicks → b.st = .idle → encodeCommand p req = some cmd →
    lineTrace p b (List.replicate (n * (82 * p.phaseTicks + 1)) (true, req)) =
      (List.replicate n (sendTrace p cmd ++ [p.idleLines])).flatten

/-- R132: two runs of the same length that differ only in what the host drives on `start` and `req` agree in every state
up to and including the one in which the send in progress ends: a request presented meanwhile leaves no trace. -/
def Obligations.RequestsWhileBusyAreLost : Prop :=
  ∀ (p : Config.Params) (b : Block p.phaseTicks) (inputs inputs' : List Inputs),
    inputs.length = inputs'.length → inputs.length ≤ cyclesLeft p b →
    runRule p b inputs = runRule p b inputs'

/-- R138 and R166: with `rst = 0` the send in progress ends after exactly `cyclesLeft` cycles, at most `82 * N` of
them. -/
def Obligations.EverySendEnds : Prop :=
  ∀ (p : Config.Params) (b : Block p.phaseTicks) (inputs : List Inputs),
    1 ≤ p.phaseTicks → Inv p b → inputs.length = cyclesLeft p b →
    cyclesLeft p b ≤ 82 * p.phaseTicks ∧ (runRule p b inputs).st = .idle ∧
    ∀ k, k < cyclesLeft p b → (runRule p b (inputs.take k)).st ≠ .idle

/-- R28 and R138: the phase index stays while the timer runs, goes up by one at each phase's end, and a send ends after
phase 81. -/
def Obligations.PhaseIndexAdvances : Prop :=
  ∀ (p : Config.Params) (b : Block p.phaseTicks) (start : Bool) (req : Word) (k : Nat), phaseIndex b = some k →
    k ≤ 81 ∧
    (b.tmr ≠ 0 → phaseIndex (ruleStep p false start req b) = some k ∧
      (ruleStep p false start req b).tmr.toNat = b.tmr.toNat - 1) ∧
    (b.tmr = 0 → k < 81 → phaseIndex (ruleStep p false start req b) = some (k + 1) ∧
      (ruleStep p false start req b).tmr.toNat = p.phaseTicks - 1) ∧
    (b.tmr = 0 → k = 81 → phaseIndex (ruleStep p false start req b) = none)

/-- R15 and R151: the timer's width is the ceiling logarithm of the phase's cycles, 6 bits at 35 and none at 1; it holds
`PHASE_TICKS - 1`; and in a cycle with `rst = 0` it is reloaded at each phase boundary, counts down in a send, and is
left alone otherwise. A reset makes it 0. -/
def Obligations.PhaseTimer : Prop :=
  (∀ n w : Nat, 1 ≤ n → (timerWidth n ≤ w ↔ n ≤ 2 ^ w)) ∧ timerWidth params.phaseTicks = 6 ∧ timerWidth 1 = 0 ∧
  ∀ (p : Config.Params) (b : Block p.phaseTicks) (start : Bool) (req : Word),
    (ruleStep p true start req b).tmr = 0 ∧
    (b.st = .idle → (start = false ∨ encodeCommand p req = none) → (ruleStep p false start req b).tmr = b.tmr) ∧
    (b.st = .idle → start = true → encodeCommand p req ≠ none →
      (ruleStep p false start req b).tmr.toNat = p.phaseTicks - 1) ∧
    (b.st ≠ .idle → b.tmr ≠ 0 → (ruleStep p false start req b).tmr.toNat = b.tmr.toNat - 1) ∧
    (∀ k, phaseIndex b = some k → b.tmr = 0 → k < 81 →
      (ruleStep p false start req b).tmr.toNat = p.phaseTicks - 1) ∧
    (phaseIndex b = some 81 → b.tmr = 0 → (ruleStep p false start req b).tmr = 0)

/-! ### Invariants and whole-machine rules -/

/-- R26: every step keeps the invariant. -/
def Obligations.StepKeepsInvariant : Prop :=
  ∀ s t : State, Inv params s.toBlock → step s = .next t → Inv params t.toBlock

/-- R26 for any parameters: R133's step keeps the invariant, whatever its inputs. -/
def Obligations.RuleStepKeepsInvariant : Prop :=
  ∀ (p : Config.Params) (rst start : Bool) (req : Word) (b : Block p.phaseTicks), Inv p b → Inv p (ruleStep p rst start req b)

/-- R26 holds after reset, for any parameters. -/
def Obligations.ResetMeetsInvariant : Prop :=
  Inv params State.reset.toBlock ∧ ∀ p : Config.Params, Inv p (Block.reset p)

/-- R26 and R28 together: in a state that meets the invariant, the lines during a send are those of its phase. -/
def Obligations.LinesAreThePhase : Prop :=
  ∀ (p : Config.Params) (b : Block p.phaseTicks) (k : Nat), Inv p b → phaseIndex b = some k →
    (sendPhases b.cmd)[k]? = some (lines b)

/-- R17: when DONE is 1 after a step: a send ended, or it was 1 and no accept step and no reset took place. -/
def Obligations.DoneChangesOnlyAsStated : Prop :=
  ∀ (s t : State) (rst start : Bool) (req : Word), currentEvent s = .cycle rst start req → step s = .next t →
    (t.done = true ↔ rst = false ∧
      ((s.st = .rest ∧ s.bcnt.val = 0 ∧ s.tmr = 0) ∨ (s.done = true ∧ ¬ (s.st = .idle ∧ start = true))))

/-- R18 and R147: when INV is 1 after a step: an accept step met an Invalid word, or it was 1 and no accept step and no
reset took place. The last clause is the sentence that R18 itself marks derived (from R127, R131 and R143), under the
invariant: INV and DONE are never both 1 and INV = 1 only in `IDLE`. -/
def Obligations.InvChangesOnlyAsStated : Prop :=
  ∀ (s t : State) (rst start : Bool) (req : Word), currentEvent s = .cycle rst start req → step s = .next t →
    (t.inv = true ↔ rst = false ∧
      ((s.st = .idle ∧ start = true ∧ ∀ i, decode req ≠ .ok i) ∨ (s.inv = true ∧ ¬ (s.st = .idle ∧ start = true)))) ∧
    (Inv params s.toBlock → ¬ (t.done = true ∧ t.inv = true) ∧ (t.inv = true → t.st = .idle))

/-- R11, R26 (g) and R25: `CMD` after a step; it is written by a reset (0x0000, log 15) and by the accept of a valid
request, and by nothing else. -/
def Obligations.CmdChangesOnlyAsStated : Prop :=
  ∀ (s t : State) (rst start : Bool) (req : Word), currentEvent s = .cycle rst start req → step s = .next t →
    (rst = true → t.cmd = 0x0000#16) ∧
    (∀ e, rst = false → s.st = .idle → start = true → encodeCommand params req = some e → t.cmd = e) ∧
    (rst = false → ¬ (s.st = .idle ∧ start = true ∧ (encodeCommand params req).isSome = true) → t.cmd = s.cmd)

/-- R16, R19 and R10: the status bits and the pins. -/
def Obligations.StatusAndPins : Prop :=
  ∀ (ticks : Nat) (b : Block ticks),
    (status b).getLsbD 0 = (outputs b).busy ∧ (status b).getLsbD 1 = b.done ∧ (status b).getLsbD 2 = b.inv ∧
    ((outputs b).busy = true ↔ b.st ≠ .idle) ∧ (outputs b).rts = b.rts ∧ (outputs b).dtr = b.dtr ∧
    (outputs b).done = b.done ∧ (outputs b).inv = b.inv ∧ (outputs b).cmdOut = b.cmd

/-- R168: the figures that follow from the phase counts; `PHASE_TICKS * T_CLK = D` (R6); and the phases that meet
`D_TOL`, for any tolerance and for this hardware's (R123). -/
def Obligations.TimingFigures : Prop :=
  sendCycles params = 2870 ∧ (∀ cmd, (sendTrace params cmd).length = 2870) ∧
  (transmit header).length * params.phaseTicks = 1120 ∧ (transmit footer).length * params.phaseTicks = 560 ∧
  (∀ cmd, (transmit (frame cmd)).length * params.phaseTicks = 2800) ∧
  (∀ p : Config.Params, 1 ≤ p.phaseTicks → (p.phaseTicks : Rat) * Config.clockPeriodMs p = 35) ∧
  (∀ (p : Config.Params) (ms : Rat), Config.phaseInTolerance p ms ↔ |ms - 35| ≤ p.toleranceMs) ∧
  (∀ ms : Rat, Config.phaseInTolerance params ms ↔ 34 ≤ ms ∧ ms ≤ 36)

/-! ### The assembler -/

/-- R81: the parser gives only the two admitted shapes, so the word it assembles is valid and decodes to its triple.
And what it refuses for its first character: the empty token (R86) and every first character outside A to P in either
case (R76); no such token is assembled to a request. -/
def Obligations.ParserGivesAdmittedTriples : Prop :=
  (∀ (token : Token) (t : Triple), parse token = some t →
    t.admitted = true ∧ assemble token = some (pack t) ∧
    ∃ i, decode (pack t) = .ok i ∧ i.wellFormed = true ∧ i.triple = t) ∧
  parse [] = none ∧
  (∀ (first : Char8) (rem : Token),
    ¬ (0x41 ≤ first.toNat ∧ first.toNat ≤ 0x50) → ¬ (0x61 ≤ first.toNat ∧ first.toNat ≤ 0x70) →
    parse (first :: rem) = none) ∧
  ∀ token : Token, parse token = none → assemble token = none

/-- R76, R77 and R80: behind a house letter, a remainder that does not begin with a valid unit number is matched whole
against the two keywords; a remainder that is neither is Invalid. -/
def Obligations.KeywordTokensParse : Prop :=
  ∀ (first : Char8) (house : BitVec 4) (digits rest : Token),
    (first.toNat = 0x41 + house.toNat ∨ first.toNat = 0x61 + house.toNat) →
    (∀ d ∈ digits, isDigit d = true) → (∀ c, rest.head? = some c → isDigit c = false) →
    (digits = [] ∨ ¬ (1 ≤ digitsValue digits ∧ digitsValue digits ≤ 16)) →
    parse (first :: (digits ++ rest)) =
      if (digits ++ rest).map upper = [0x44, 0x49, 0x4D] then some ⟨house, none, .dim⟩
      else if (digits ++ rest).map upper = [0x42, 0x52, 0x49, 0x47, 0x48, 0x54] then some ⟨house, none, .bright⟩
      else none

/-- R85: case is ignored everywhere. -/
def Obligations.ParserIgnoresCase : Prop := ∀ token : Token, parse (token.map upper) = parse token

/-- R59: assembling the canonical text of a valid request gives the request back. -/
def Obligations.AssembleDisassemble : Prop :=
  ∀ i : Instr, i.wellFormed = true → assemble (disassemble i) = some (encode i)

/-- R78, R79 and R82: a token of a house letter, a number in [1,16] and any rest parses to that house, that number less 1
and OFF or ON by its last three characters alone. The test behind it reads those characters in either case; behind a
first character and at least one digit it is the same test on what follows the digits, so the address is never read. -/
def Obligations.OffTestNeverReadsTheAddress : Prop :=
  (∀ (first : Char8) (house : BitVec 4) (digits rest : Token),
    (first.toNat = 0x41 + house.toNat ∨ first.toNat = 0x61 + house.toNat) →
    digits ≠ [] → (∀ d ∈ digits, isDigit d = true) → (∀ c, rest.head? = some c → isDigit c = false) →
    1 ≤ digitsValue digits → digitsValue digits ≤ 16 →
    parse (first :: (digits ++ rest)) =
      some ⟨house, some (BitVec.ofNat 4 (digitsValue digits - 1)),
        if endsInOff (first :: (digits ++ rest)) then .switchOff else .switchOn⟩) ∧
  (∀ token : Token, endsInOff token = true ↔
    3 ≤ token.length ∧ (token[token.length - 3]?).map upper = some 0x4F#8 ∧
    (token[token.length - 2]?).map upper = some 0x46#8 ∧ (token[token.length - 1]?).map upper = some 0x46#8) ∧
  ∀ (first : Char8) (digits rest : Token), digits ≠ [] → (∀ d ∈ digits, isDigit d = true) →
    endsInOff (first :: (digits ++ rest)) = endsInOff rest

/-- R80: a number out of [1,16] makes the token Invalid, whatever follows it. -/
def Obligations.NumberOutOfRangeIsInvalid : Prop :=
  ∀ (first : Char8) (digits rest : Token), digits ≠ [] → (∀ d ∈ digits, isDigit d = true) →
    (∀ c, rest.head? = some c → isDigit c = false) → ¬ (1 ≤ digitsValue digits ∧ digitsValue digits ≤ 16) →
    parse (first :: (digits ++ rest)) = none

/-- R83: the value of a run of digits is the number it denotes in base 10, without a bound; leading zeros do not
change it. -/
def Obligations.DigitsDenoteANatural : Prop :=
  digitsValue [] = 0 ∧ ∀ digits : Token,
    digitsValue (0x30#8 :: digits) = digitsValue digits ∧
    (∀ d, digitsValue (digits ++ [d]) = 10 * digitsValue digits + (d.toNat - 0x30))

/-- R88 with R162 (log 16): the host's protocol, one cycle of reset and then each request in the first cycle with
`busy = 0`, run on the machine from any state: cycle by cycle the lines are idle after the reset and then those of each
request in turn, a send for a valid one and no activity for an Invalid one; and the state at the end is the reset state
but for `CMD`, `DONE` and `INV`. -/
def Obligations.HostProtocolRuns : Prop :=
  ∀ (s : State) (requests : List Word) (rest : List HostEvent), s.host = hostScript params requests ++ rest →
    (hostScript params requests).length = (⟨false, false⟩ :: requests.flatMap (requestTrace params)).length ∧
    (∀ k, k < (hostScript params requests).length →
      ∃ t, Host.Core.run core (k + 1) s = .next t ∧
        (⟨false, false⟩ :: requests.flatMap (requestTrace params))[k]? = some (lines t.toBlock)) ∧
    Host.Core.run core (hostScript params requests).length s =
      .next { State.reset with
        cmd := ((requests.filterMap (encodeCommand params)).getLast?).getD 0x0000#16
        done := (requests.getLast?.map fun r => (encodeCommand params r).isSome).getD false
        inv := (requests.getLast?.map fun r => (encodeCommand params r).isNone).getD false
        host := rest }
end

