-- ==== Sys2Proof/Laws/Decode.lean ====
section
/-! SUPPORT. The bits and fields of the request word, the word of its fields, and what the decoder's answer says. -/

namespace Sys2Proof

/-- Every bit of the request word of given fields (R45). -/
theorem getLsbD_reqWord (fn : BitVec 2) (uv : Bool) (unit house : BitVec 5) (k : Nat) :
    (reqWord fn uv unit house).getLsbD k =
      if k < 5 then house.getLsbD k
      else if k < 8 then false
      else if k < 13 then unit.getLsbD (k - 8)
      else if k < 14 then uv
      else fn.getLsbD (k - 14) := by
  change (fn ++ BitVec.ofBool uv ++ unit ++ 0#3 ++ house : BitVec (2 + 1 + 5 + 3 + 5)).getLsbD k = _
  simp only [BitVec.getLsbD_append, BitVec.getLsbD_zero, BitVec.getLsbD_ofBool]
  repeat' split
  all_goals first
    | rfl
    | omega
    | simp_all

@[simp] theorem reqFn_reqWord (fn : BitVec 2) (uv : Bool) (unit house : BitVec 5) :
    reqFn (reqWord fn uv unit house) = fn := by
  ext i hi
  interval_cases i <;> simp [reqFn, getLsbD_reqWord, ← BitVec.getLsbD_eq_getElem]

@[simp] theorem reqUv_reqWord (fn : BitVec 2) (uv : Bool) (unit house : BitVec 5) :
    reqUv (reqWord fn uv unit house) = uv := by
  simp [reqUv, getLsbD_reqWord, -BitVec.getLsbD_eq_getElem]

@[simp] theorem reqUnit_reqWord (fn : BitVec 2) (uv : Bool) (unit house : BitVec 5) :
    reqUnit (reqWord fn uv unit house) = unit := by
  ext i hi
  interval_cases i <;> simp [reqUnit, getLsbD_reqWord, ← BitVec.getLsbD_eq_getElem]

@[simp] theorem reqRsv_reqWord (fn : BitVec 2) (uv : Bool) (unit house : BitVec 5) :
    reqRsv (reqWord fn uv unit house) = 0 := by
  ext i hi
  interval_cases i <;> simp [reqRsv, getLsbD_reqWord, ← BitVec.getLsbD_eq_getElem]

@[simp] theorem reqHouse_reqWord (fn : BitVec 2) (uv : Bool) (unit house : BitVec 5) :
    reqHouse (reqWord fn uv unit house) = house := by
  ext i hi
  interval_cases i <;> simp [reqHouse, getLsbD_reqWord, ← BitVec.getLsbD_eq_getElem]

/-- A word with no reserved bit set is the word of its fields. -/
theorem reqWord_fields {w : Word} (h : reqRsv w = 0) :
    reqWord (reqFn w) (reqUv w) (reqUnit w) (reqHouse w) = w := by
  have hr : ∀ k, k < 3 → w.getLsbD (5 + k) = false := fun k hk => by
    have := congrArg (fun v => v.getLsbD k) h
    simpa [reqRsv, hk] using this
  have h5 := hr 0 (by omega)
  have h6 := hr 1 (by omega)
  have h7 := hr 2 (by omega)
  simp only [Nat.add_zero, Nat.reduceAdd] at h5 h6 h7
  apply BitVec.eq_of_getLsbD_eq
  intro i hi
  rw [getLsbD_reqWord]
  interval_cases i <;> simp [reqFn, reqUv, reqUnit, reqHouse, h5, h6, h7, -BitVec.getLsbD_eq_getElem]

@[simp] theorem functionOfField_field (f : FunctionCode) : functionOfField f.field = f := by
  cases f <;> rfl

@[simp] theorem field_functionOfField (fn : BitVec 2) : (functionOfField fn).field = fn := by
  revert fn
  decide

/-- When a word has no sub-cause of R141. -/
theorem invalidCauses_eq_nil_iff (w : Word) :
    invalidCauses w = [] ↔
      reqRsv w = 0 ∧ (reqHouse w).toNat < 16 ∧
      ((functionOfField (reqFn w)).namesUnit = true → reqUv w = true ∧ (reqUnit w).toNat < 16) ∧
      ((functionOfField (reqFn w)).namesUnit = false → reqUv w = false ∧ reqUnit w = 0) := by
  cases hn : (functionOfField (reqFn w)).namesUnit <;> cases hu : reqUv w <;>
    simp [invalidCauses, indexInRange, hn, hu]

/-- A decoded word has no sub-cause of R141, and its fields are the instruction's. -/
theorem decode_eq_ok_iff (w : Word) (i : Instr) :
    decode w = .ok i ↔
      invalidCauses w = [] ∧ instrOfFields (functionOfField (reqFn w)) (reqHouse w) (reqUnit w) = i := by
  unfold decode
  split <;> simp_all

end Sys2Proof
end

