-- ==== Sys2Proof/Laws/State.lean ====
section
/-! SUPPORT. One lemma per field per update of the block and the state, so that no proof unfolds a record update,
and the timer's arithmetic. -/

namespace Sys2Proof.Machine

variable {ticks : Nat}

@[simp] theorem flagsAccepted_st (b : Block ticks) : (flagsAccepted b).st = b.st := rfl
@[simp] theorem flagsAccepted_bcnt (b : Block ticks) : (flagsAccepted b).bcnt = b.bcnt := rfl
@[simp] theorem flagsAccepted_tmr (b : Block ticks) : (flagsAccepted b).tmr = b.tmr := rfl
@[simp] theorem flagsAccepted_cmd (b : Block ticks) : (flagsAccepted b).cmd = b.cmd := rfl
@[simp] theorem flagsAccepted_rts (b : Block ticks) : (flagsAccepted b).rts = b.rts := rfl
@[simp] theorem flagsAccepted_dtr (b : Block ticks) : (flagsAccepted b).dtr = b.dtr := rfl
@[simp] theorem flagsAccepted_done (b : Block ticks) : (flagsAccepted b).done = false := rfl
@[simp] theorem flagsAccepted_inv (b : Block ticks) : (flagsAccepted b).inv = false := rfl

@[simp] theorem flagsInvalid_st (b : Block ticks) : (flagsInvalid b).st = b.st := rfl
@[simp] theorem flagsInvalid_bcnt (b : Block ticks) : (flagsInvalid b).bcnt = b.bcnt := rfl
@[simp] theorem flagsInvalid_tmr (b : Block ticks) : (flagsInvalid b).tmr = b.tmr := rfl
@[simp] theorem flagsInvalid_cmd (b : Block ticks) : (flagsInvalid b).cmd = b.cmd := rfl
@[simp] theorem flagsInvalid_rts (b : Block ticks) : (flagsInvalid b).rts = b.rts := rfl
@[simp] theorem flagsInvalid_dtr (b : Block ticks) : (flagsInvalid b).dtr = b.dtr := rfl
@[simp] theorem flagsInvalid_done (b : Block ticks) : (flagsInvalid b).done = false := rfl
@[simp] theorem flagsInvalid_inv (b : Block ticks) : (flagsInvalid b).inv = true := rfl

@[simp] theorem flagsSent_st (b : Block ticks) : (flagsSent b).st = b.st := rfl
@[simp] theorem flagsSent_bcnt (b : Block ticks) : (flagsSent b).bcnt = b.bcnt := rfl
@[simp] theorem flagsSent_tmr (b : Block ticks) : (flagsSent b).tmr = b.tmr := rfl
@[simp] theorem flagsSent_cmd (b : Block ticks) : (flagsSent b).cmd = b.cmd := rfl
@[simp] theorem flagsSent_rts (b : Block ticks) : (flagsSent b).rts = b.rts := rfl
@[simp] theorem flagsSent_dtr (b : Block ticks) : (flagsSent b).dtr = b.dtr := rfl
@[simp] theorem flagsSent_done (b : Block ticks) : (flagsSent b).done = true := rfl
@[simp] theorem flagsSent_inv (b : Block ticks) : (flagsSent b).inv = b.inv := rfl

@[simp] theorem setLines_st (l : Lines) (b : Block ticks) : (setLines l b).st = b.st := rfl
@[simp] theorem setLines_bcnt (l : Lines) (b : Block ticks) : (setLines l b).bcnt = b.bcnt := rfl
@[simp] theorem setLines_tmr (l : Lines) (b : Block ticks) : (setLines l b).tmr = b.tmr := rfl
@[simp] theorem setLines_cmd (l : Lines) (b : Block ticks) : (setLines l b).cmd = b.cmd := rfl
@[simp] theorem setLines_rts (l : Lines) (b : Block ticks) : (setLines l b).rts = l.rts := rfl
@[simp] theorem setLines_dtr (l : Lines) (b : Block ticks) : (setLines l b).dtr = l.dtr := rfl
@[simp] theorem setLines_done (l : Lines) (b : Block ticks) : (setLines l b).done = b.done := rfl
@[simp] theorem setLines_inv (l : Lines) (b : Block ticks) : (setLines l b).inv = b.inv := rfl

@[simp] theorem enterPhase_st (q : SeqState) (l : Lines) (b : Block ticks) : (enterPhase q l b).st = q := rfl
@[simp] theorem enterPhase_bcnt (q : SeqState) (l : Lines) (b : Block ticks) : (enterPhase q l b).bcnt = b.bcnt := rfl
@[simp] theorem enterPhase_tmr (q : SeqState) (l : Lines) (b : Block ticks) : (enterPhase q l b).tmr = timerLoad ticks := rfl
@[simp] theorem enterPhase_cmd (q : SeqState) (l : Lines) (b : Block ticks) : (enterPhase q l b).cmd = b.cmd := rfl
@[simp] theorem enterPhase_rts (q : SeqState) (l : Lines) (b : Block ticks) : (enterPhase q l b).rts = l.rts := rfl
@[simp] theorem enterPhase_dtr (q : SeqState) (l : Lines) (b : Block ticks) : (enterPhase q l b).dtr = l.dtr := rfl
@[simp] theorem enterPhase_done (q : SeqState) (l : Lines) (b : Block ticks) : (enterPhase q l b).done = b.done := rfl
@[simp] theorem enterPhase_inv (q : SeqState) (l : Lines) (b : Block ticks) : (enterPhase q l b).inv = b.inv := rfl

@[simp] theorem enterMark_st (k : Fin 40) (b : Block ticks) : (enterMark k b).st = .mark := rfl
@[simp] theorem enterMark_bcnt (k : Fin 40) (b : Block ticks) : (enterMark k b).bcnt = k := rfl
@[simp] theorem enterMark_tmr (k : Fin 40) (b : Block ticks) : (enterMark k b).tmr = timerLoad ticks := rfl
@[simp] theorem enterMark_cmd (k : Fin 40) (b : Block ticks) : (enterMark k b).cmd = b.cmd := rfl
@[simp] theorem enterMark_rts (k : Fin 40) (b : Block ticks) : (enterMark k b).rts = (frame b.cmd).getLsbD k.val := rfl
@[simp] theorem enterMark_dtr (k : Fin 40) (b : Block ticks) : (enterMark k b).dtr = !(frame b.cmd).getLsbD k.val := rfl
@[simp] theorem enterMark_done (k : Fin 40) (b : Block ticks) : (enterMark k b).done = b.done := rfl
@[simp] theorem enterMark_inv (k : Fin 40) (b : Block ticks) : (enterMark k b).inv = b.inv := rfl

@[simp] theorem release_st (p : Config.Params) (b : Block ticks) : (release p b).st = .idle := rfl
@[simp] theorem release_bcnt (p : Config.Params) (b : Block ticks) : (release p b).bcnt = b.bcnt := rfl
@[simp] theorem release_tmr (p : Config.Params) (b : Block ticks) : (release p b).tmr = b.tmr := rfl
@[simp] theorem release_cmd (p : Config.Params) (b : Block ticks) : (release p b).cmd = b.cmd := rfl
@[simp] theorem release_rts (p : Config.Params) (b : Block ticks) : (release p b).rts = p.idleLines.rts := rfl
@[simp] theorem release_dtr (p : Config.Params) (b : Block ticks) : (release p b).dtr = p.idleLines.dtr := rfl
@[simp] theorem release_done (p : Config.Params) (b : Block ticks) : (release p b).done = true := rfl
@[simp] theorem release_inv (p : Config.Params) (b : Block ticks) : (release p b).inv = b.inv := rfl

@[simp] theorem raiseInvalidCommand_st (b : Block ticks) : (raiseInvalidCommand b).st = b.st := rfl
@[simp] theorem raiseInvalidCommand_bcnt (b : Block ticks) : (raiseInvalidCommand b).bcnt = b.bcnt := rfl
@[simp] theorem raiseInvalidCommand_tmr (b : Block ticks) : (raiseInvalidCommand b).tmr = b.tmr := rfl
@[simp] theorem raiseInvalidCommand_cmd (b : Block ticks) : (raiseInvalidCommand b).cmd = b.cmd := rfl
@[simp] theorem raiseInvalidCommand_rts (b : Block ticks) : (raiseInvalidCommand b).rts = b.rts := rfl
@[simp] theorem raiseInvalidCommand_dtr (b : Block ticks) : (raiseInvalidCommand b).dtr = b.dtr := rfl
@[simp] theorem raiseInvalidCommand_done (b : Block ticks) : (raiseInvalidCommand b).done = false := rfl
@[simp] theorem raiseInvalidCommand_inv (b : Block ticks) : (raiseInvalidCommand b).inv = true := rfl

@[simp] theorem beginSend_st (e : Word) (b : Block ticks) : (beginSend e b).st = .rst0 := rfl
@[simp] theorem beginSend_bcnt (e : Word) (b : Block ticks) : (beginSend e b).bcnt = b.bcnt := rfl
@[simp] theorem beginSend_tmr (e : Word) (b : Block ticks) : (beginSend e b).tmr = timerLoad ticks := rfl
@[simp] theorem beginSend_cmd (e : Word) (b : Block ticks) : (beginSend e b).cmd = e := rfl
@[simp] theorem beginSend_rts (e : Word) (b : Block ticks) : (beginSend e b).rts = false := rfl
@[simp] theorem beginSend_dtr (e : Word) (b : Block ticks) : (beginSend e b).dtr = false := rfl
@[simp] theorem beginSend_done (e : Word) (b : Block ticks) : (beginSend e b).done = false := rfl
@[simp] theorem beginSend_inv (e : Word) (b : Block ticks) : (beginSend e b).inv = false := rfl

@[simp] theorem reset_st (p : Config.Params) : (Block.reset p).st = .idle := rfl
@[simp] theorem reset_bcnt (p : Config.Params) : (Block.reset p).bcnt = 0 := rfl
@[simp] theorem reset_tmr (p : Config.Params) : (Block.reset p).tmr = 0 := rfl
@[simp] theorem reset_cmd (p : Config.Params) : (Block.reset p).cmd = 0x0000#16 := rfl
@[simp] theorem reset_rts (p : Config.Params) : (Block.reset p).rts = p.idleLines.rts := rfl
@[simp] theorem reset_dtr (p : Config.Params) : (Block.reset p).dtr = p.idleLines.dtr := rfl
@[simp] theorem reset_done (p : Config.Params) : (Block.reset p).done = false := rfl
@[simp] theorem reset_inv (p : Config.Params) : (Block.reset p).inv = false := rfl

@[simp] theorem consume_toBlock (s : State) : (consume s).toBlock = s.toBlock := rfl
@[simp] theorem consume_host (s : State) : (consume s).host = s.host.tail := rfl
@[simp] theorem onBlock_toBlock (f : Block params.phaseTicks → Block params.phaseTicks) (s : State) :
    (onBlock f s).toBlock = f s.toBlock := rfl
@[simp] theorem onBlock_host (f : Block params.phaseTicks → Block params.phaseTicks) (s : State) :
    (onBlock f s).host = s.host := rfl
@[simp] theorem onBlock_mk (f : Block params.phaseTicks → Block params.phaseTicks) (b : Block params.phaseTicks)
    (h : List HostEvent) : onBlock f ⟨b, h⟩ = ⟨f b, h⟩ := rfl

@[simp] theorem lines_setLines (l : Lines) (b : Block ticks) : lines (setLines l b) = l := rfl

@[simp] theorem lines_enterPhase (q : SeqState) (l : Lines) (b : Block ticks) : lines (enterPhase q l b) = l := rfl

@[simp] theorem lines_enterMark (k : Fin 40) (b : Block ticks) :
    lines (enterMark k b) = markLines ((frame b.cmd).getLsbD k.val) := rfl

@[simp] theorem lines_release (p : Config.Params) (b : Block ticks) : lines (release p b) = p.idleLines := rfl

@[simp] theorem lines_beginSend (e : Word) (b : Block ticks) : lines (beginSend e b) = linesOff := rfl

@[simp] theorem bcntPred_val (k : Fin 40) : (bcntPred k).val = k.val - 1 := rfl

theorem busy_eq_true_iff (b : Block ticks) : busy b = true ↔ b.st ≠ .idle := by simp [busy]

theorem busy_eq_false_iff (b : Block ticks) : busy b = false ↔ b.st = .idle := by simp [busy]

/-- Two blocks with the same eight registers are one. -/
theorem Block.eq_of_fields {a b : Block ticks} (hst : a.st = b.st) (hb : a.bcnt = b.bcnt) (ht : a.tmr = b.tmr)
    (hc : a.cmd = b.cmd) (hr : a.rts = b.rts) (hd : a.dtr = b.dtr) (hdone : a.done = b.done) (hi : a.inv = b.inv) :
    a = b := by
  cases a; cases b; simp_all

/-- Two states with the same block and the same coming cycles are one. -/
theorem State.eq_of_parts {s t : State} (hb : s.toBlock = t.toBlock) (hh : s.host = t.host) : s = t := by
  cases s; cases t; simp_all

/-! ### The timer -/

/-- Enough fuel: `n` fits into its ceiling logarithm. -/
theorem le_two_pow_ceilLog2Within (fuel n : Nat) (h : n ≤ fuel) : n ≤ 2 ^ ceilLog2Within fuel n := by
  induction fuel generalizing n with
  | zero => exact Nat.le_trans h (Nat.zero_le _)
  | succ fuel ih =>
    unfold ceilLog2Within
    split
    · simpa
    · have := ih ((n + 1) / 2) (by omega)
      rw [Nat.pow_succ]
      omega

/-- A phase's cycles fit into the timer's width (R15). -/
theorem le_two_pow_timerWidth (ticks : Nat) : ticks ≤ 2 ^ timerWidth ticks :=
  le_two_pow_ceilLog2Within ticks ticks (Nat.le_refl _)

/-- The timer holds `PHASE_TICKS - 1` without wrapping (R15). -/
@[simp] theorem timerLoad_toNat (ticks : Nat) : (timerLoad ticks).toNat = ticks - 1 := by
  have h := le_two_pow_timerWidth ticks
  have := Nat.two_pow_pos (timerWidth ticks)
  rw [timerLoad, BitVec.toNat_ofNat, Nat.mod_eq_of_lt (by omega)]

/-- A running timer counts down by one without wrapping (R15). -/
theorem toNat_timer_sub_one {w : Nat} {t : BitVec w} (h : t ≠ 0) : (t - 1).toNat = t.toNat - 1 := by
  cases w with
  | zero => exact absurd BitVec.of_length_zero h
  | succ w =>
    have h0 : t.toNat ≠ 0 := fun hz => h (BitVec.eq_of_toNat_eq (by simpa using hz))
    have h1 : (1 : BitVec (w + 1)).toNat = 1 := by
      change 1 % 2 ^ (w + 1) = 1
      exact Nat.mod_eq_of_lt (Nat.one_lt_two_pow (by omega))
    exact BitVec.toNat_sub_of_le (by rw [BitVec.le_def, h1]; omega) |>.trans (by rw [h1])

end Sys2Proof.Machine
end

