-- ==== Sys2Proof/Laws/Ops.lean ====
section
/-! SUPPORT. One lemma per shared operation that says everything it can do: the ROM read, the encoder's operands, the
timed step, the accept, and the clock edge. -/

namespace Sys2Proof.Machine

/-! ### ROM reads -/

theorem memRead_house (p : Config.Params) {i : Nat} (h : i < 16) : memRead p .house i = some p.houseRom[i] := by
  simp [memRead, h]

theorem memRead_unit (p : Config.Params) {i : Nat} (h : i < 16) : memRead p .unit i = some p.unitRom[i] := by
  simp [memRead, h]

theorem memRead_house_none (p : Config.Params) {i : Nat} (h : 16 ≤ i) : memRead p .house i = none := by
  simp [memRead, h]

theorem memRead_unit_none (p : Config.Params) {i : Nat} (h : 16 ≤ i) : memRead p .unit i = none := by
  simp [memRead, h]

/-- The function index is always in range (R33); the four words are R68's. -/
theorem functionOperand_eq (p : Config.Params) (f : FunctionCode) :
    functionOperand p f = some (match f with
      | .switchOn => 0x0000#16 | .switchOff => 0x0020#16 | .bright => 0x00A8#16 | .dim => 0x00B8#16) := by
  cases f <;> rfl

/-- The command word of an in-range house and unit. -/
theorem commandWord_unit (p : Config.Params) {house unit : Nat} (hh : house < 16) (hu : unit < 16) (f : FunctionCode) :
    commandWord p house (some unit) f =
      some (p.houseRom[house] ||| p.unitRom[unit] ||| (match f with
        | .switchOn => 0x0000#16 | .switchOff => 0x0020#16 | .bright => 0x00A8#16 | .dim => 0x00B8#16)) := by
  simp only [commandWord, houseOperand, unitOperand, functionOperand_eq, memRead_house p hh, memRead_unit p hu]

/-- The command word of an in-range house without a unit. -/
theorem commandWord_none (p : Config.Params) {house : Nat} (hh : house < 16) (f : FunctionCode) :
    commandWord p house none f =
      some (p.houseRom[house] ||| (match f with
        | .switchOn => 0x0000#16 | .switchOff => 0x0020#16 | .bright => 0x00A8#16 | .dim => 0x00B8#16)) := by
  simp only [commandWord, houseOperand, unitOperand, functionOperand_eq, memRead_house p hh, BitVec.or_zero]

theorem commandWord_house_out (p : Config.Params) {house : Nat} (hh : 16 ≤ house) (unit : Option Nat) (f : FunctionCode) :
    commandWord p house unit f = none := by
  simp [commandWord, houseOperand, memRead_house_none p hh]

theorem commandWord_unit_out (p : Config.Params) (house : Nat) {unit : Nat} (hu : 16 ≤ unit) (f : FunctionCode) :
    commandWord p house (some unit) f = none := by
  simp [commandWord, unitOperand, memRead_unit_none p hu]

/-! ### The timed step -/

theorem sequencerStep_idle (p : Config.Params) {b : Block p.phaseTicks} (h : b.st = .idle) : sequencerStep p b = b := by
  simp [sequencerStep, h]

/-- While the timer runs, the timed step only counts down (R15). -/
theorem sequencerStep_hold (p : Config.Params) {b : Block p.phaseTicks} (h : b.st ≠ .idle) (ht : b.tmr ≠ 0) :
    sequencerStep p b = { b with tmr := b.tmr - 1 } := by
  cases hs : b.st <;> simp_all [sequencerStep, holdOr]

/-- R128, timer at 0. -/
theorem sequencerStep_rst0 (p : Config.Params) {b : Block p.phaseTicks} (h : b.st = .rst0) (ht : b.tmr = 0) :
    sequencerStep p b = enterPhase .rst1 restLines b := by
  simp [sequencerStep, holdOr, h, ht]

/-- R129, timer at 0. -/
theorem sequencerStep_rst1 (p : Config.Params) {b : Block p.phaseTicks} (h : b.st = .rst1) (ht : b.tmr = 0) :
    sequencerStep p b = enterMark 39 b := by
  simp [sequencerStep, holdOr, h, ht]

/-- R130, timer at 0. -/
theorem sequencerStep_mark (p : Config.Params) {b : Block p.phaseTicks} (h : b.st = .mark) (ht : b.tmr = 0) :
    sequencerStep p b = enterPhase .rest restLines b := by
  simp [sequencerStep, holdOr, h, ht]

/-- R131, timer at 0, a bit left. -/
theorem sequencerStep_rest (p : Config.Params) {b : Block p.phaseTicks} (h : b.st = .rest) (ht : b.tmr = 0) (hb : b.bcnt ≠ 0) :
    sequencerStep p b = enterMark (bcntPred b.bcnt) b := by
  simp [sequencerStep, holdOr, h, ht, hb]

/-- R131, timer at 0, the last bit. -/
theorem sequencerStep_last (p : Config.Params) {b : Block p.phaseTicks} (h : b.st = .rest) (ht : b.tmr = 0) (hb : b.bcnt = 0) :
    sequencerStep p b = release p b := by
  simp [sequencerStep, holdOr, h, ht, hb]

/-- Everything a cycle without a request can do. -/
theorem sequencerStep_cases (p : Config.Params) (b : Block p.phaseTicks) :
    (b.st = .idle ∧ sequencerStep p b = b) ∨
    (b.st ≠ .idle ∧ b.tmr ≠ 0 ∧ sequencerStep p b = { b with tmr := b.tmr - 1 }) ∨
    (b.st = .rst0 ∧ b.tmr = 0 ∧ sequencerStep p b = enterPhase .rst1 restLines b) ∨
    (b.st = .rst1 ∧ b.tmr = 0 ∧ sequencerStep p b = enterMark 39 b) ∨
    (b.st = .mark ∧ b.tmr = 0 ∧ sequencerStep p b = enterPhase .rest restLines b) ∨
    (b.st = .rest ∧ b.tmr = 0 ∧ b.bcnt ≠ 0 ∧ sequencerStep p b = enterMark (bcntPred b.bcnt) b) ∨
    (b.st = .rest ∧ b.tmr = 0 ∧ b.bcnt = 0 ∧ sequencerStep p b = release p b) := by
  by_cases ht : b.tmr = 0
  · by_cases hb : b.bcnt = 0 <;> cases hs : b.st <;> simp [sequencerStep, holdOr, hs, ht, hb]
  · by_cases hs : b.st = .idle
    · exact .inl ⟨hs, sequencerStep_idle p hs⟩
    · exact .inr (.inl ⟨hs, ht, sequencerStep_hold p hs ht⟩)

@[simp] theorem sequencerStep_cmd (p : Config.Params) (b : Block p.phaseTicks) : (sequencerStep p b).cmd = b.cmd := by
  rcases sequencerStep_cases p b with ⟨_, h⟩ | ⟨_, _, h⟩ | ⟨_, _, h⟩ | ⟨_, _, h⟩ | ⟨_, _, h⟩ | ⟨_, _, _, h⟩ |
    ⟨_, _, _, h⟩ <;> simp [h]

@[simp] theorem sequencerStep_inv (p : Config.Params) (b : Block p.phaseTicks) : (sequencerStep p b).inv = b.inv := by
  rcases sequencerStep_cases p b with ⟨_, h⟩ | ⟨_, _, h⟩ | ⟨_, _, h⟩ | ⟨_, _, h⟩ | ⟨_, _, h⟩ | ⟨_, _, _, h⟩ |
    ⟨_, _, _, h⟩ <;> simp [h]

/-! ### Presenting a request -/

theorem present_busy (p : Config.Params) (e : Option Word) {b : Block p.phaseTicks} (h : b.st ≠ .idle) :
    present p e b = sequencerStep p b := by
  simp [present, (busy_eq_true_iff b).2 h]

theorem present_invalid (p : Config.Params) {b : Block p.phaseTicks} (h : b.st = .idle) :
    present p none b = raiseInvalidCommand b := by
  simp [present, (busy_eq_false_iff b).2 h, accept]

theorem present_valid (p : Config.Params) (e : Word) {b : Block p.phaseTicks} (h : b.st = .idle) :
    present p (some e) b = beginSend e b := by
  simp [present, (busy_eq_false_iff b).2 h, accept]

/-! ### The clock edge -/

/-- Executing an instruction is presenting its command word; it always answers a next state. -/
theorem exec_eq_present (i : Instr) (s : State) :
    exec i s = .next (onBlock (present params (match i with
      | .switchOn house unit => commandWord params house.toNat (some unit.toNat) .switchOn
      | .switchOff house unit => commandWord params house.toNat (some unit.toNat) .switchOff
      | .bright house => commandWord params house.toNat none .bright
      | .dim house => commandWord params house.toNat none .dim)) s) := by
  cases i <;> rfl

/-- Everything a step can do. -/
theorem step_cases (s : State) :
    (∃ m, currentEvent s = .misuse m ∧ step s = .fault (.hostMisuse m)) ∨
    (∃ start req, currentEvent s = .cycle true start req ∧ step s = .next (onBlock (hardReset params) (consume s))) ∨
    (∃ req, currentEvent s = .cycle false false req ∧ step s = .next (onBlock (sequencerStep params) (consume s))) ∨
    (∃ req i, currentEvent s = .cycle false true req ∧ decode req = .ok i ∧ step s = exec i (consume s)) ∨
    (∃ req causes, currentEvent s = .cycle false true req ∧ decode req = .error causes ∧
      step s = .next (onBlock (present params none) (consume s))) := by
  cases he : currentEvent s with
  | misuse m => simp [step, clockEdge, he]
  | cycle rst start req =>
    cases rst <;> cases start <;> simp [step, clockEdge, he, inputCycle]
    cases hd : decode req <;> simp [requestCycle, hd]

end Sys2Proof.Machine
end

