-- ==== Sys2Proof/Laws/PerInstr.lean ====
section
/-! SUPPORT. The per-instruction family RowMatch: the word of a well-formed instruction has the form of its row of the
opcode map (R51). -/

namespace Sys2Proof.Laws.RowMatch

/-- R51: `w & mask = match` for the word of a well-formed instruction. -/
def Statement (i : Instr) : Prop := i.wellFormed = true → i.row.matchesWord (encode i) = true

/-- R51's ON and OFF forms leave the four low bits of each index free and nothing else. -/
theorem unit_form (fn : BitVec 2) :
    ∀ house unit : BitVec 5, indexInRange house = true → indexInRange unit = true →
      reqWord fn true unit house &&& 0xF0F0#16 = reqWord fn true 0 0 := by
  revert fn
  decide

/-- R51's BRIGHT and DIM forms leave the four low bits of the house index free and nothing else. -/
theorem house_form (fn : BitVec 2) :
    ∀ house : BitVec 5, indexInRange house = true → reqWord fn false 0 house &&& 0xFFF0#16 = reqWord fn false 0 0 := by
  revert fn
  decide

theorem switchOn (house unit : BitVec 5) : Statement (.switchOn house unit) := fun h => by
  simp only [Instr.wellFormed, Bool.and_eq_true] at h
  simp only [OpcodeRow.matchesWord, Instr.row, encode, unit_form _ house unit h.1 h.2]
  rfl

theorem switchOff (house unit : BitVec 5) : Statement (.switchOff house unit) := fun h => by
  simp only [Instr.wellFormed, Bool.and_eq_true] at h
  simp only [OpcodeRow.matchesWord, Instr.row, encode, unit_form _ house unit h.1 h.2]
  rfl

theorem bright (house : BitVec 5) : Statement (.bright house) := fun h => by
  simp only [OpcodeRow.matchesWord, Instr.row, encode, house_form _ house h]
  rfl

theorem dim (house : BitVec 5) : Statement (.dim house) := fun h => by
  simp only [OpcodeRow.matchesWord, Instr.row, encode, house_form _ house h]
  rfl

end Sys2Proof.Laws.RowMatch
end

