-- ==== Sys2Proof/Laws/Runs.lean ====
section
/-! SUPPORT. R133's step in terms of the named operations, its runs, and the phase lists of the waveform. -/

namespace Sys2Proof.Machine

/-! ### R133's step -/

/-- Without a request that is looked at, R133's step is the sequencer's. -/
theorem ruleStep_quiet (p : Config.Params) (s : Block p.phaseTicks) (start : Bool) (req : Word)
    (h : s.st ≠ .idle ∨ start = false) : ruleStep p false start req s = sequencerStep p s := by
  cases hs : s.st with
  | idle =>
    have : start = false := by simpa [hs] using h
    subst this
    simp [ruleStep, sequencerStep, hs]
  | rst0 => simp [ruleStep, sequencerStep, hs, holdOr, enterPhase, setLines, restLines]
  | rst1 => simp [ruleStep, sequencerStep, hs, holdOr, enterMark, enterPhase, setLines, markLines]
  | mark => simp [ruleStep, sequencerStep, hs, holdOr, enterPhase, setLines, restLines]
  | rest =>
    by_cases hb : s.bcnt = 0
    · simp [ruleStep, sequencerStep, hs, holdOr, release, setLines, flagsSent, hb]
    · have : (s.bcnt : Nat) ≠ 0 := fun h => hb (Fin.ext h)
      simp [ruleStep, sequencerStep, hs, holdOr, enterMark, enterPhase, setLines, markLines, hb, bcntPred]

/-- Everything R133's step can do, in the order of R145. -/
theorem ruleStep_eq (p : Config.Params) (rst start : Bool) (req : Word) (s : Block p.phaseTicks) :
    ruleStep p rst start req s =
      if rst then hardReset p s
      else if start then present p (encodeCommand p req) s
      else sequencerStep p s := by
  cases rst
  · cases start
    · simpa using ruleStep_quiet p s false req (.inr rfl)
    · by_cases hs : s.st = .idle
      · cases he : encodeCommand p req
        · simp [present_invalid p hs, ruleStep, hs, he, raiseInvalidCommand, flagsInvalid]
        · simp [present_valid p _ hs, ruleStep, hs, he, beginSend, enterPhase, setLines, flagsAccepted, linesOff]
      · simp [present_busy p _ hs, ruleStep_quiet p s true req (.inl hs)]
  · simp [ruleStep, hardReset, Block.reset]

/-! ### Runs -/

@[simp] theorem runRule_nil (p : Config.Params) (s : Block p.phaseTicks) : runRule p s [] = s := rfl

@[simp] theorem runRule_cons (p : Config.Params) (s : Block p.phaseTicks) (start : Bool) (req : Word) (rest : List Inputs) :
    runRule p s ((start, req) :: rest) = runRule p (ruleStep p false start req s) rest := rfl

theorem runRule_append (p : Config.Params) (s : Block p.phaseTicks) (a b : List Inputs) :
    runRule p s (a ++ b) = runRule p (runRule p s a) b := by
  induction a generalizing s with
  | nil => rfl
  | cons i rest ih => exact ih _

theorem lineTrace_append (p : Config.Params) (s : Block p.phaseTicks) (a b : List Inputs) :
    lineTrace p s (a ++ b) = lineTrace p s a ++ lineTrace p (runRule p s a) b := by
  induction a generalizing s with
  | nil => rfl
  | cons i rest ih => exact congrArg (lines _ :: ·) (ih _)

@[simp] theorem lineTrace_length (p : Config.Params) (s : Block p.phaseTicks) (inputs : List Inputs) :
    (lineTrace p s inputs).length = inputs.length := by
  induction inputs generalizing s with
  | nil => rfl
  | cons i rest ih => exact congrArg (· + 1) (ih _)

/-- The `k`-th entry of a trace is the line pair after the first `k + 1` cycles. -/
theorem lineTrace_getElem? (p : Config.Params) (s : Block p.phaseTicks) (inputs : List Inputs) (k : Nat) (hk : k < inputs.length) :
    (lineTrace p s inputs)[k]? = some (lines (runRule p s (inputs.take (k + 1)))) := by
  induction inputs generalizing s k with
  | nil => simp at hk
  | cons i rest ih =>
    cases k with
    | zero => rfl
    | succ k => exact ih _ k (by simpa using hk)

/-- A run of `m + n` steps is a run of `m` followed by one of `n`. -/
theorem run_add {s t : State} (m n : Nat) (h : Host.Core.run core m s = .next t) :
    Host.Core.run core (m + n) s = Host.Core.run core n t := by
  induction m generalizing s with
  | zero => cases h; simp
  | succ m ih =>
    rw [Nat.succ_add]
    simp only [Host.Core.run] at h ⊢
    cases hs : core.step s with
    | next u => rw [hs] at h; exact ih h
    | fault r => rw [hs] at h; cases h
    | refused r => rw [hs] at h; cases h

/-! ### The waveform -/

/-- Every bit of the frame (R105). -/
theorem getLsbD_frame (cmd : Word) (k : Nat) :
    (frame cmd).getLsbD k =
      if k < 8 then footer.getLsbD k else if k < 24 then cmd.getLsbD (k - 8) else header.getLsbD (k - 24) := by
  change (header ++ cmd ++ footer : BitVec (16 + 16 + 8)).getLsbD k = _
  simp only [BitVec.getLsbD_append]
  by_cases h8 : k < 8
  · simp [h8]
  · by_cases h24 : k < 24
    · simp [h8, h24, show k - 8 < 16 by omega]
    · simp [h8, h24, show ¬ k - 8 < 16 by omega, show k - 8 - 16 = k - 24 by omega]

@[simp] theorem transmitBelow_length {w : Nat} (v : BitVec w) (n : Nat) : (transmitBelow v n).length = 2 * n := by
  induction n with
  | zero => rfl
  | succ n ih => simp [transmitBelow, bitPhases, ih]; omega

@[simp] theorem transmit_length {w : Nat} (v : BitVec w) : (transmit v).length = 2 * w := transmitBelow_length v w

@[simp] theorem sendPhases_length (cmd : Word) : (sendPhases cmd).length = 82 := by simp [sendPhases]

/-- The phase list of the lower bits depends on those bits alone. -/
theorem transmitBelow_congr {w w' : Nat} (v : BitVec w) (v' : BitVec w') (n : Nat)
    (h : ∀ k, k < n → v.getLsbD k = v'.getLsbD k) : transmitBelow v n = transmitBelow v' n := by
  induction n with
  | zero => rfl
  | succ n ih => simp only [transmitBelow, h n (by omega), ih fun k hk => h k (by omega)]

end Sys2Proof.Machine
end

