-- ==== Sys2Proof/Tests/Slice0.lean ====
section
/-! SUPPORT. Tests, expected values from spec/ (`95_test_vectors.md` unless another file is named), and for every
statement with hypotheses a witness that meets them. -/

namespace Sys2Proof.Tests

open Sys2Proof.Machine

/-- The state of an outcome. -/
def stateOf : Host.Outcome State Fault Refusal → Option State
  | .next s => some s
  | .fault _ => none
  | .refused _ => none

/-- A state in the given place of a send, `CMD` and the host's next cycle given, the other fields as after reset. -/
def at' (st : SeqState) (bcnt : Fin 40) (tmr : BitVec (timerWidth 35)) (cmd : Word) (e : HostEvent) : State :=
  { State.reset with st := st, bcnt := bcnt, tmr := tmr, cmd := cmd, host := [e] }

/-- A state that meets the invariant in the rest phase of a frame bit. -/
def resting (bcnt : Fin 40) (tmr : BitVec (timerWidth 35)) (e : HostEvent) : State :=
  { at' .rest bcnt tmr 0x6000 e with rts := true, dtr := true }

/-- The fields the vectors of section 7 print. -/
structure Shown where
  st : SeqState
  bcnt : Nat
  tmr : Nat
  cmd : Word
  lines : Lines
  done : Bool
  inv : Bool
  deriving DecidableEq, Repr

/-- The printed fields of a state. -/
def fields (s : State) : Shown := ⟨s.st, s.bcnt.val, s.tmr.toNat, s.cmd, lines s.toBlock, s.done, s.inv⟩

/-- Characters of a token. -/
def ascii (cs : List Char) : Token := cs.map fun c => BitVec.ofNat 8 c.toNat

/-- One cycle per phase, the spec's tables (D2 admits it). -/
def p1 : Config.Params := { params with phaseTicks := 1 }

/-! ### WellFormed: each check refuses an ill-formed term -/

theorem test_wellFormed_on_house : (Instr.switchOn 16 0).wellFormed = false := by decide
theorem test_wellFormed_on_unit : (Instr.switchOn 0 16).wellFormed = false := by decide
theorem test_wellFormed_off_house : (Instr.switchOff 31 0).wellFormed = false := by decide
theorem test_wellFormed_off_unit : (Instr.switchOff 0 31).wellFormed = false := by decide
theorem test_wellFormed_bright_house : (Instr.bright 16).wellFormed = false := by decide
theorem test_wellFormed_dim_house : (Instr.dim 16).wellFormed = false := by decide
theorem test_wellFormed_accepts : (Instr.switchOn 15 15).wellFormed = true := by decide

/-! ### Decoding: words written out from R51 and section 3 -/

/-- 0b0010_1011_0000_0000: unit index 11, house 0 (A12ON). -/
theorem test_decode_on : decode 0b0010101100000000#16 = .ok (.switchOn 0 11) := by decide
/-- 0b0110_1001_0000_0111: unit index 9, house 7. -/
theorem test_decode_off : decode 0b0110100100000111#16 = .ok (.switchOff 7 9) := by decide
/-- 0b1000_0000_0000_1111: house 15. -/
theorem test_decode_bright : decode 0b1000000000001111#16 = .ok (.bright 15) := by decide
/-- 0b1100_0000_0000_0010: house 2 (CDIM). -/
theorem test_decode_dim : decode 0b1100000000000010#16 = .ok (.dim 2) := by decide
/-- Section 3: 0xFFFF is Invalid for (a), (b) and (e) at once. -/
theorem test_decode_all_ones : decode 0xFFFF#16 = .error [.reservedBits, .houseRange, .unitForbidden] := by decide
theorem test_decode_stray_unit : decode 0x9000#16 = .error [.strayUnitBits] := by decide
theorem test_encode_off : encode (.switchOff 15 15) = 0x6F0F#16 := by decide
theorem test_table_word : decodeTableWord 16 0x2000 = some (.switchOn 0 0) := by decide

/-! ### The four operations, one step each (sections 1 and 4) -/

/-- A1ON: 0x6000; cycle 1 of section 7.1 with N = 35. -/
theorem test_on_a1 : (stateOf (step (State.reset.withFetchWord 16 0x2000))).map fields =
    some ⟨.rst0, 0, 34, 0x6000#16, ⟨false, false⟩, false, false⟩ := by decide
/-- A12ON: 0x6400, the documented duplicate of A9ON (S7). -/
theorem test_on_a12 : (stateOf (exec (.switchOn 0 11) State.reset)).map (·.cmd) = some 0x6400#16 := by decide
/-- P16OFF: 0x3478 (S2). -/
theorem test_off_p16 : (stateOf (exec (.switchOff 15 15) State.reset)).map (·.cmd) = some 0x3478#16 := by decide
/-- J10OFF: 0xF430, from supplied entries (section 2, [S]). -/
theorem test_off_j10 : (stateOf (exec (.switchOff 9 9) State.reset)).map (·.cmd) = some 0xF430#16 := by decide
/-- ABRIGHT: 0x60A8 (S4). -/
theorem test_bright_a : (stateOf (exec (.bright 0) State.reset)).map (·.cmd) = some 0x60A8#16 := by decide
/-- CDIM: 0x40B8 (S3). -/
theorem test_dim_c : (stateOf (exec (.dim 2) State.reset)).map (·.cmd) = some 0x40B8#16 := by decide

/-! ### Single-cycle events (section 7.2) -/

theorem test_invalid_keeps_cmd :
    (stateOf (step { at' .idle 0 0 0x6000 (.cycle false true 0x2010) with done := true })).map fields =
      some ⟨.idle, 0, 0, 0x6000#16, ⟨false, false⟩, false, true⟩ := by decide

theorem test_busy_request_lost :
    (stateOf (step (at' .mark 20 3 0x6000 (.cycle false true 0x6F0F)))).map fields =
      some ⟨.mark, 20, 2, 0x6000#16, ⟨false, false⟩, false, false⟩ := by decide

theorem test_end_of_send_request_not_accepted :
    (stateOf (step (resting 0 0 (.cycle false true 0x6F0F)))).map fields =
      some ⟨.idle, 0, 0, 0x6000#16, ⟨false, false⟩, true, false⟩ := by decide

/-- The first command bit, `FRAME[23]` = 0. -/
theorem test_first_command_bit :
    (stateOf (step (resting 24 0 quietEvent))).map fields =
      some ⟨.mark, 23, 34, 0x6000#16, ⟨false, true⟩, false, false⟩ := by decide

/-- The first footer bit, `FRAME[7]` = 1. -/
theorem test_first_footer_bit :
    (stateOf (step (resting 8 0 quietEvent))).map fields =
      some ⟨.mark, 7, 34, 0x6000#16, ⟨true, false⟩, false, false⟩ := by decide

theorem test_reset_in_mid_send :
    (stateOf (step (at' .mark 12 5 0x3478 (.cycle true false 0)))).map fields =
      some ⟨.idle, 0, 0, 0x0000#16, ⟨false, false⟩, false, false⟩ := by decide

theorem test_misuse_faults :
    stateOf (step (at' .idle 0 0 0 (.misuse .clockFault))) = none := by decide

/-! ### The timer (R15) -/

theorem test_timer_width : timerWidth 35 = 6 ∧ timerWidth 1 = 0 ∧ timerWidth 64 = 6 ∧ timerWidth 65 = 7 := by decide

/-! ### Frame and waveform (sections 5 and 6) -/

theorem test_frame : frame 0x3478#16 = 0xD5AA3478AD#40 := by decide

/-- `TRANSMIT(0xAD, 8)` = `R=D=R=D=R=R=D=R=`, its mark phases. -/
theorem test_transmit_footer : (transmit 0xAD#8).map Lines.rts =
    [true, true, false, true, true, true, false, true, true, true, true, true, false, true, true, true] := by decide

/-! ### The assembler (section 2) -/

theorem test_parse_off : assemble (ascii ['P', '1', '6', 'o', 'F', 'f']) = some 0x6F0F#16 := by decide
theorem test_parse_last_three : assemble (ascii ['A', '1', 'X', 'O', 'F', 'F']) = some 0x6000#16 := by decide
theorem test_parse_on_on_off : assemble (ascii ['A', '1', 'O', 'N', 'O', 'F', 'F']) = some 0x6000#16 := by decide
theorem test_parse_not_a_keyword : parse (ascii ['A', 'D', 'I', 'M', 'S']) = none := by decide
theorem test_parse_dim_after_unit : assemble (ascii ['A', '1', 'D', 'I', 'M']) = some 0x2000#16 := by decide
theorem test_parse_keyword : assemble (ascii ['c', 'D', 'i', 'm']) = some 0xC002#16 := by decide
theorem test_parse_out_of_range : parse (ascii ['A', '1', '7', 'D', 'I', 'M']) = none := by decide
theorem test_parse_no_wrap :
    parse (ascii ['A', '4', '2', '9', '4', '9', '6', '7', '2', '9', '7']) = none := by decide
theorem test_parse_off_is_house_o : parse (ascii ['O', 'F', 'F']) = none := by decide
theorem test_parse_list_skips_invalid :
    assembleAll [ascii ['A', '1'], ascii ['Q', '1'], ascii ['P', '1', '6', 'O', 'F', 'F']] = [0x2000#16, 0x6F0F#16] := by
  decide
theorem test_disassemble : disassemble (.switchOff 15 15) = ascii ['P', '1', '6', 'O', 'F', 'F'] := by decide

/-! ### Witnesses: a state and operands that meet each statement's hypotheses -/

theorem witness_DecodeEncodeRoundTrip : (Instr.switchOff 15 15).wellFormed = true := by decide

theorem witness_EncodeDecodeRoundTrip : decode 0x6F0F#16 = .ok (.switchOff 15 15) := by decide

/-- Both admitted shapes, at the top of their ranges. -/
theorem witness_PackInvertsDecode :
    (⟨15, some 15, .switchOff⟩ : Triple).admitted = true ∧ (⟨15, none, .dim⟩ : Triple).admitted = true ∧
    decodeTriple 0x6F0F#16 = some ⟨15, some 15, .switchOff⟩ := by decide

/-- One valid word of each shape, and an Invalid one. -/
theorem witness_DecodeAcceptsExactlyRule50 :
    decode 0x2F0F#16 = .ok (.switchOn 15 15) ∧ decode 0xC00F#16 = .ok (.dim 15) ∧
    decode 0x2010#16 = .error [.houseRange] := by decide

theorem witness_OpcodeMapIsExact :
    (Instr.dim 0).row ∈ opcodeMap ∧ (0xC002#16 &&& (Instr.dim 0).row.mask) = (Instr.dim 0).row.pattern ∧
    decode 0xC002#16 = .ok (.dim 2) := by decide

theorem witness_StepRunsDecodedInstruction :
    currentEvent (at' .idle 0 0 0 (.cycle false true 0x8000)) = .cycle false true 0x8000#16 ∧
    decode 0x8000#16 = .ok (.bright 0) ∧ decode (BitVec.ofNat 16 0x8000) = .ok (.bright 0) := by decide

theorem witness_StepIsRule133 :
    currentEvent (at' .mark 39 0 0 (.cycle true true 0xFFFF)) = .cycle true true 0xFFFF#16 := by decide

theorem witness_HardwareResetClearsEveryState :
    currentEvent (at' .rest 39 63 0xFFFF (.cycle true true 0)) = .cycle true true 0#16 := by decide

/-- Every case of the accept step: no request, an Invalid one, a valid one, and a busy block. -/
theorem witness_AcceptStep :
    currentEvent (at' .idle 0 0 0 (.cycle false false 0xFFFF)) = .cycle false false 0xFFFF#16 ∧
    currentEvent (at' .idle 0 0 0 (.cycle false true 0x2010)) = .cycle false true 0x2010#16 ∧
    encodeCommand params 0x2010#16 = none ∧ encodeCommand params 0x200F#16 = some 0x3000#16 ∧
    (at' .rst0 0 0 0 (.cycle false true 0x200F)).st ≠ .idle ∧
    stateOf (step (at' .rst0 0 0 0 (.cycle false true 0x200F))) ≠ none := by decide

/-- Every case of the timed step, at the ends of `BCNT`'s range where it counts. -/
theorem witness_SequencerTimedStep :
    currentEvent (at' .rest 39 0 0 (.cycle false true 0)) = .cycle false true 0#16 ∧
    (at' .rest 39 34 0 quietEvent).tmr ≠ 0 ∧ (at' .rst0 0 0 0 quietEvent).tmr = 0 ∧
    (at' .rst1 0 0 0 quietEvent).st = .rst1 ∧ (at' .mark 0 0 0 quietEvent).st = .mark ∧
    (at' .rest 39 0 0 quietEvent).bcnt.val = (38 : Fin 40).val + 1 ∧
    (at' .rest 1 0 0 quietEvent).bcnt.val = (0 : Fin 40).val + 1 ∧
    (at' .rest 0 0 0 quietEvent).bcnt.val = 0 := by decide

theorem witness_InvalidCommandSetsOnlyFlags :
    currentEvent (at' .idle 0 0 0x6000 (.cycle false true 0x0000)) = .cycle false true 0#16 ∧
    (at' .idle 0 0 0x6000 quietEvent).st = .idle ∧ decode 0#16 = .error [.unitMissing] := by decide

theorem witness_StopsOnlyOnHostMisuse :
    currentEvent (at' .idle 0 0 0 (.misuse .outputDriven)) = .misuse .outputDriven ∧
    step (at' .idle 0 0 0 (.misuse .outputDriven)) = .fault (.hostMisuse .outputDriven) := ⟨by decide, rfl⟩

theorem witness_SilentHostCycle : State.reset.host = [] := by decide

/-- The largest index in range, in an idle state. -/
theorem witness_SwitchOnResult : (15#5).toNat < 16 ∧ State.reset.st = .idle := by decide
theorem witness_SwitchOffResult : (15#5).toNat < 16 ∧ (0#5).toNat < 16 ∧ State.reset.st = .idle := by decide
theorem witness_BrightResult : (15#5).toNat < 16 ∧ (at' .idle 7 9 1 quietEvent).st = .idle := by decide
theorem witness_DimResult : (0#5).toNat < 16 ∧ (at' .idle 7 9 1 quietEvent).st = .idle := by decide

theorem witness_OutOfRangeIndexIsInvalid : (Instr.switchOn 15 16).wellFormed = false ∧ State.reset.st = .idle := by
  decide

/-- A word of each shape, and an Invalid one. -/
theorem witness_EncoderIsOrOfPatterns :
    decodeTriple 0x2010#16 = none ∧ decodeTriple 0x2F0F#16 = some ⟨15, some 15, .switchOn⟩ ∧
    decodeTriple 0x6F0F#16 = some ⟨15, some 15, .switchOff⟩ ∧ decodeTriple 0x800F#16 = some ⟨15, none, .bright⟩ ∧
    decodeTriple 0xC00F#16 = some ⟨15, none, .dim⟩ := by decide

theorem witness_admissible : Config.Admissible params where
  ticks := by decide
  houseA := by decide
  houseC := by decide
  houseP := by decide
  unit1 := by decide
  unit9 := by decide
  unit12 := by decide
  unit16 := by decide
  notMonotonic := ⟨⟨0, 2, by decide, by decide⟩, ⟨0, 1, by decide, by decide⟩⟩
  idle := .inl rfl

theorem witness_UnitTwelveSendsUnitNinesPattern :
    Config.Admissible params ∧ encodeCommand params (encode (.switchOff 15 11)) = some 0x3420#16 :=
  ⟨witness_admissible, by decide⟩

/-- Two different instructions with one command. -/
theorem witness_OnlyUnitsNineAndTwelveCollide :
    (Instr.switchOn 4 8).wellFormed = true ∧ (Instr.switchOn 4 11).wellFormed = true ∧
    encodeCommand params (encode (.switchOn 4 8)) = encodeCommand params (encode (.switchOn 4 11)) := by decide

theorem witness_OneLineChangesPerPhase :
    (transmit 2#2)[1]? = some ⟨true, true⟩ ∧ (transmit 2#2)[2]? = some ⟨false, true⟩ := by decide

theorem witness_SendDrivesItsPhases :
    1 ≤ p1.phaseTicks ∧ (Block.reset p1).st = .idle ∧ encodeCommand p1 0x2000#16 = some 0x6000#16 ∧
    (List.replicate 82 (true, 0xFFFF#16)).length = 82 * p1.phaseTicks := by decide

theorem witness_MachineSendsARequest :
    ∃ (s : State) (inputs : List Inputs), s.st = .idle ∧
      s.host = .cycle false true 0x2000#16 :: (hostOf inputs ++ [quietEvent]) ∧
      encodeCommand params 0x2000#16 = some 0x6000#16 ∧ inputs.length = 2870 :=
  ⟨{ State.reset with
      host := .cycle false true 0x2000#16 :: (hostOf (List.replicate 2870 (true, 0xFFFF#16)) ++ [quietEvent]) },
    List.replicate 2870 (true, 0xFFFF#16), rfl, rfl, by decide, List.length_replicate⟩

theorem witness_MachineRunIsRuleRun :
    (at' .idle 0 0 0 (.cycle false true 0x2000)).host = hostOf [(true, 0x2000#16)] ++ [] := by decide

/-- A run of a valid request and an Invalid one. -/
theorem witness_RunTraceIsItsSends :
    1 ≤ p1.phaseTicks ∧ (Block.reset p1).st = .idle ∧ lines (Block.reset p1) = p1.idleLines ∧
    (⟨[1#16], 0x2000#16, List.replicate 82 (true, 0xFFFF#16)⟩ : RunRequest).fits p1 ∧
    (⟨[], 0x2010#16, []⟩ : RunRequest).fits p1 :=
  ⟨by decide, by decide, by decide, by unfold RunRequest.fits; decide, by unfold RunRequest.fits; decide⟩

theorem witness_StartHeldSendsAgain :
    1 ≤ p1.phaseTicks ∧ (Block.reset p1).st = .idle ∧ encodeCommand p1 0x6F0F#16 = some 0x3478#16 := by decide

/-- The last cycles of a send, three of them, with different inputs. -/
theorem witness_RequestsWhileBusyAreLost :
    [(true, 1#16), (true, 2#16), (false, 3#16)].length = [(false, 0#16), (false, 0#16), (true, 0x2000#16)].length ∧
    [(true, 1#16), (true, 2#16), (false, 3#16)].length ≤ cyclesLeft params (resting 0 2 quietEvent).toBlock := by decide

/-- The invariant in a busy state. -/
theorem witness_inv_busy : Inv params (resting 0 2 quietEvent).toBlock := by
  constructor <;> decide

theorem witness_EverySendEnds :
    1 ≤ params.phaseTicks ∧ Inv params (resting 0 2 quietEvent).toBlock ∧
    (List.replicate 3 (true, 0x2000#16)).length = cyclesLeft params (resting 0 2 quietEvent).toBlock :=
  ⟨by decide, witness_inv_busy, by decide⟩

/-- Each case: no request, a valid one, a running timer, a phase's end and the send's. -/
theorem witness_PhaseTimer :
    (1 : Nat) ≤ 35 ∧ (Block.reset params).st = .idle ∧ encodeCommand params 0x2000#16 ≠ none ∧
    encodeCommand params 0x2010#16 = none ∧ (resting 0 2 quietEvent).st ≠ .idle ∧ (resting 0 2 quietEvent).tmr ≠ 0 ∧
    phaseIndex (resting 1 0 quietEvent).toBlock = some 79 ∧ (resting 1 0 quietEvent).tmr = 0 ∧
    phaseIndex (resting 0 0 quietEvent).toBlock = some 81 := by decide

/-- The first and the last phase, and a running timer. -/
theorem witness_PhaseIndexAdvances :
    phaseIndex (at' .rst0 0 0 0 quietEvent).toBlock = some 0 ∧ phaseIndex (resting 0 0 quietEvent).toBlock = some 81 ∧
    (resting 0 0 quietEvent).tmr = 0 ∧ (resting 0 2 quietEvent).tmr ≠ 0 := by decide

theorem witness_StepKeepsInvariant :
    Inv params (resting 0 2 quietEvent).toBlock ∧ ∃ t, step (resting 0 2 quietEvent) = .next t :=
  ⟨witness_inv_busy, _, rfl⟩

theorem witness_RuleStepKeepsInvariant : Inv params (resting 0 2 quietEvent).toBlock := witness_inv_busy

theorem witness_LinesAreThePhase :
    Inv params (resting 0 2 quietEvent).toBlock ∧ phaseIndex (resting 0 2 quietEvent).toBlock = some 81 :=
  ⟨witness_inv_busy, by decide⟩

/-- The step that sets DONE. -/
theorem witness_DoneChangesOnlyAsStated :
    currentEvent (resting 0 0 quietEvent) = .cycle false false 0#16 ∧
    ∃ t, step (resting 0 0 quietEvent) = .next t ∧ t.done = true := ⟨by decide, _, rfl, by decide⟩

/-- The step that sets INV, from a state that meets the invariant. -/
theorem witness_InvChangesOnlyAsStated :
    currentEvent (at' .idle 0 0 0 (.cycle false true 0x2010)) = .cycle false true 0x2010#16 ∧
    Inv params (at' .idle 0 0 0 (.cycle false true 0x2010)).toBlock ∧
    ∃ t, step (at' .idle 0 0 0 (.cycle false true 0x2010)) = .next t ∧ t.inv = true :=
  ⟨by decide, by constructor <;> decide, _, rfl, by decide⟩

/-- The step that writes `CMD`, the reset that clears it, and a step that keeps it. -/
theorem witness_CmdChangesOnlyAsStated :
    (∃ t, step (at' .idle 0 0 0 (.cycle false true 0x200F)) = .next t ∧ t.cmd = 0x3000#16) ∧
    encodeCommand params 0x200F#16 = some 0x3000#16 ∧
    (∃ t, step (at' .idle 0 0 0x6000 (.cycle true true 0x200F)) = .next t ∧ t.cmd = 0#16) ∧
    (∃ t, step (at' .mark 0 0 0x6000 (.cycle false true 0x200F)) = .next t ∧ t.cmd = 0x6000#16) :=
  ⟨⟨_, rfl, by decide⟩, by decide, ⟨_, rfl, by decide⟩, ⟨_, rfl, by decide⟩⟩

/-- Both shapes, and the first characters next to the ranges of A to P and a to p. -/
theorem witness_ParserGivesAdmittedTriples :
    parse (ascii ['P', '1', '6']) = some ⟨15, some 15, .switchOn⟩ ∧
    parse (ascii ['a', 'd', 'i', 'm']) = some ⟨0, none, .dim⟩ ∧
    (¬ (0x41 ≤ (0x51#8).toNat ∧ (0x51#8).toNat ≤ 0x50)) ∧ (¬ (0x61 ≤ (0x51#8).toNat ∧ (0x51#8).toNat ≤ 0x70)) ∧
    parse (ascii ['Q', '1', 'O', 'N']) = none := by decide

/-- The last house, in lower case, with no digits and with a number just out of range. -/
theorem witness_KeywordTokensParse :
    (0x70#8).toNat = 0x61 + (15#4).toNat ∧ (0x41#8).toNat = 0x41 + (0#4).toNat ∧
    (∀ d ∈ ascii ['1', '7'], isDigit d = true) ∧ (∀ c, (ascii ['D', 'I', 'M']).head? = some c → isDigit c = false) ∧
    (ascii [] = [] ∨ ¬ (1 ≤ digitsValue (ascii []) ∧ digitsValue (ascii []) ≤ 16)) ∧
    ¬ (1 ≤ digitsValue (ascii ['1', '7']) ∧ digitsValue (ascii ['1', '7']) ≤ 16) :=
  ⟨by decide, by decide, by decide, by intro c h; cases h; decide, .inl rfl, by decide⟩

theorem witness_AssembleDisassemble : (Instr.switchOn 15 9).wellFormed = true := by decide

/-- The largest unit of the last house, followed by `FF`: the test reads one digit. -/
theorem witness_OffTestNeverReadsTheAddress :
    (0x50#8).toNat = 0x41 + (15#4).toNat ∧ ascii ['1', '6'] ≠ [] ∧ (∀ d ∈ ascii ['1', '6'], isDigit d = true) ∧
    (∀ c, (ascii ['F', 'F']).head? = some c → isDigit c = false) ∧ digitsValue (ascii ['1', '6']) = 16 ∧
    digitsValue (ascii ['1']) = 1 ∧
    endsInOff (ascii ['P', '1', '6', 'F', 'F']) = false ∧ endsInOff (ascii ['o', 'F', 'f']) = true :=
  ⟨by decide, by decide, by decide, by intro c h; cases h; decide, by decide, by decide, by decide, by decide⟩

/-- Just above and just below the range. -/
theorem witness_NumberOutOfRangeIsInvalid :
    (∀ d ∈ ascii ['1', '7'], isDigit d = true) ∧ digitsValue (ascii ['1', '7']) = 17 ∧
    (∀ d ∈ ascii ['0'], isDigit d = true) ∧ digitsValue (ascii ['0']) = 0 ∧
    (ascii ['D', 'I', 'M']).head? = some 0x44#8 ∧ isDigit 0x44#8 = false := by decide

theorem witness_HostProtocolRuns : 0 < (hostScript params [0x2010#16]).length ∧
    ({ State.reset with host := hostScript params [0x2010#16] ++ [quietEvent] } : State).host =
      hostScript params [0x2010#16] ++ [quietEvent] := ⟨by decide, rfl⟩

theorem witness_TimingFigures : 1 ≤ p1.phaseTicks := by decide

theorem witness_RomReadsExactlyInRange : (15 : Nat) < 16 ∧ (3 : Nat) < 4 ∧ memRead params .func 4 = none := by decide

theorem witness_TransmitIsBitByBit : (1 : Nat) < 2 ∧ (transmit 2#2)[2]? = some ⟨false, true⟩ := by decide

theorem witness_SendPhaseList : (39 : Nat) < 40 ∧ (sendPhases 0x6000#16)[80]? = some ⟨true, false⟩ := by decide

end Sys2Proof.Tests
end

section
/-! SUPPORT. The state after reset (R25), and when DONE is 1 after a step (R17): one lemma per operation that a clock
edge takes, then the edge itself. -/

namespace Sys2Proof.Machine

variable {ticks : Nat}

/-! ### The state after reset -/

@[simp] theorem busy_reset (p : Config.Params) : busy (Block.reset p) = false := (busy_eq_false_iff _).2 (reset_st p)

/-! ### DONE after each operation -/

/-- An accept step clears DONE, whether the request is valid (R127) or Invalid (R143). -/
@[simp] theorem accept_done (e : Option Word) (b : Block ticks) : (accept e b).done = false := by
  cases e with
  | none => exact raiseInvalidCommand_done b
  | some cmd => exact beginSend_done cmd b

/-- R131 alone sets DONE in a timed step, and no timed step clears it. -/
theorem sequencerStep_done_iff (p : Config.Params) (b : Block p.phaseTicks) :
    (sequencerStep p b).done = true ↔ (b.st = .rest ∧ b.bcnt.val = 0 ∧ b.tmr = 0) ∨ b.done = true := by
  rcases sequencerStep_cases p b with ⟨hst, h⟩ | ⟨-, ht, h⟩ | ⟨hst, -, h⟩ | ⟨hst, -, h⟩ | ⟨hst, -, h⟩ |
    ⟨-, -, hb, h⟩ | ⟨hst, ht, hb, h⟩
  · simp [h, hst]
  · rw [h]
    exact ⟨.inr, fun hdone => hdone.resolve_left fun ⟨_, _, h0⟩ => ht h0⟩
  · simp [h, hst]
  · simp [h, hst]
  · simp [h, hst]
  · simp [h, hb]
  · simp [h, hst, ht, hb]

/-- A presented request leaves DONE to the sequencer while busy (R132); an idle block accepts it. -/
theorem present_done_iff (p : Config.Params) (e : Option Word) (b : Block p.phaseTicks) :
    (present p e b).done = true ↔ b.st ≠ .idle ∧ (sequencerStep p b).done = true := by
  by_cases hst : b.st = .idle
  · simp [present, (busy_eq_false_iff b).2 hst, hst]
  · simp [present_busy p e hst, hst]

/-! ### The clock edge -/

/-- A cycle of input levels in the order of R145: reset, then no request, then a request presented with some result of
the encoder. -/
theorem step_next_cases {s t : State} {rst start : Bool} {req : Word} (he : currentEvent s = .cycle rst start req)
    (h : step s = .next t) :
    (rst = true ∧ t = onBlock (hardReset params) (consume s)) ∨
    (rst = false ∧ start = false ∧ t = onBlock (sequencerStep params) (consume s)) ∨
    (rst = false ∧ start = true ∧ ∃ e, t = onBlock (present params e) (consume s)) := by
  rcases step_cases s with ⟨_, he', _⟩ | ⟨_, _, he', h'⟩ | ⟨_, he', h'⟩ | ⟨_, i, he', -, h'⟩ | ⟨_, _, he', -, h'⟩
  · cases he'.symm.trans he
  · cases he'.symm.trans he
    cases h'.symm.trans h
    exact .inl ⟨rfl, rfl⟩
  · cases he'.symm.trans he
    cases h'.symm.trans h
    exact .inr (.inl ⟨rfl, rfl, rfl⟩)
  · cases he'.symm.trans he
    cases (exec_eq_present i _).symm.trans (h'.symm.trans h)
    exact .inr (.inr ⟨rfl, rfl, _, rfl⟩)
  · cases he'.symm.trans he
    cases h'.symm.trans h
    exact .inr (.inr ⟨rfl, rfl, none, rfl⟩)

/-- Settles O46: DONE is read off the one operation that the clock edge takes. -/
theorem doneChangesOnlyAsStated : Obligations.DoneChangesOnlyAsStated := by
  intro s t rst start req he h
  obtain ⟨rfl, rfl⟩ | ⟨rfl, rfl, rfl⟩ | ⟨rfl, rfl, e, rfl⟩ := step_next_cases he h
  · simp [hardReset]
  · simp [sequencerStep_done_iff]
  · by_cases hst : s.st = .idle
    · simp [present_done_iff, hst]
    · simp [present_done_iff, sequencerStep_done_iff, hst]

/-- Settles O10: the reset value of each register, and `busy` by R16. -/
theorem resetState : Obligations.ResetState :=
  ⟨reset_st params, reset_rts params, reset_dtr params, reset_cmd params, reset_bcnt params, reset_tmr params,
    reset_done params, reset_inv params, busy_reset params⟩

end Sys2Proof.Machine
end

section
/-! SUPPORT. Where a ROM read is defined, for every table (R31). -/

namespace Sys2Proof.Machine

/-- `entries(space)` of R31: how many words the table holds. -/
def romEntries : RomSpace → Nat
  | .house => 16
  | .unit => 16
  | .func => 4

theorem isSome_memRead_iff (p : Config.Params) (space : RomSpace) (i : Nat) :
    (memRead p space i).isSome = true ↔ i < romEntries space := by
  cases space with
  | house => exact (isSome_getElem? p.houseRom i).to_iff
  | unit => exact (isSome_getElem? p.unitRom i).to_iff
  | func => exact (isSome_getElem? funcRom i).to_iff

theorem memRead_func (p : Config.Params) {i : Nat} (h : i < 4) : memRead p .func i = some funcRom[i] := by
  simp [memRead, h]

/-- Settles O26: where each read is defined, then the word it gives there, table by table. -/
theorem romReadsExactlyInRange : Obligations.RomReadsExactlyInRange := fun p i =>
  ⟨isSome_memRead_iff p .house i, isSome_memRead_iff p .unit i, isSome_memRead_iff p .func i,
    fun h => ⟨memRead_house p h, memRead_unit p h⟩, fun h => memRead_func p h⟩

end Sys2Proof.Machine
end

section
/-! SUPPORT. `DECODE` as R50 writes it against the instruction decoder, and R50's conditions over the bits of a word. -/

namespace Sys2Proof

/-! ### The function an `FN` field names (R46) -/

theorem namesUnit_functionOfField_iff (fn : BitVec 2) :
    (functionOfField fn).namesUnit = true ↔ fn.toNat ≤ 1 := by
  revert fn
  decide

theorem namesUnit_functionOfField_eq_false_iff (fn : BitVec 2) :
    (functionOfField fn).namesUnit = false ↔ 2 ≤ fn.toNat := by
  rw [← Bool.not_eq_true, namesUnit_functionOfField_iff]
  omega

@[simp] theorem index_functionOfField (fn : BitVec 2) : (functionOfField fn).index = fn.toNat := by
  revert fn
  decide

/-! ### The instruction decoder against `DECODE` -/

theorem triple_instrOfFields (f : FunctionCode) (house unit : BitVec 5) :
    (instrOfFields f house unit).triple =
      ⟨house.setWidth 4, if f.namesUnit then some (unit.setWidth 4) else none, f⟩ := by
  cases f <;> rfl

theorem exists_decode_eq_ok_iff (w : Word) : (∃ i, decode w = .ok i) ↔ invalidCauses w = [] := by
  simp [decode_eq_ok_iff]

/-- R50's tests in their order pass exactly when no sub-cause of R141 holds. -/
theorem decodeTriple_eq_ite (w : Word) :
    decodeTriple w =
      if invalidCauses w = [] then
        some (instrOfFields (functionOfField (reqFn w)) (reqHouse w) (reqUnit w)).triple
      else none := by
  rw [triple_instrOfFields]
  simp only [invalidCauses_eq_nil_iff]
  unfold decodeTriple
  by_cases hr : reqRsv w = 0#3
  · by_cases hh : (reqHouse w).toNat < 16
    · cases hn : (functionOfField (reqFn w)).namesUnit with
      | true =>
        by_cases hk : (reqUnit w).toNat < 16
        · cases hu : reqUv w <;> simp [hr, hh, hh.not_ge, hk, hk.not_ge]
        · simp [hr, hk, Nat.not_lt.1 hk]
      | false => cases hu : reqUv w <;> simp [hr, hh, hh.not_ge]
    · simp [hh, Nat.not_lt.1 hh]
  · simp [hr]

theorem decodeTriple_of_decode_eq_ok {w : Word} {i : Instr} (h : decode w = .ok i) :
    decodeTriple w = some i.triple := by
  obtain ⟨hc, rfl⟩ := (decode_eq_ok_iff w i).1 h
  rw [decodeTriple_eq_ite, if_pos hc]

theorem decodeTriple_eq_none_iff (w : Word) : decodeTriple w = none ↔ ∀ i, decode w ≠ .ok i := by
  rw [← not_exists, exists_decode_eq_ok_iff, decodeTriple_eq_ite]
  simp

/-! ### R50 over the bits of the word -/

/-- The tests of R50, `FN` read as a number. -/
theorem exists_decode_eq_ok_iff_fields (w : Word) :
    (∃ i, decode w = .ok i) ↔
      reqRsv w = 0 ∧ (reqHouse w).toNat < 16 ∧
      ((reqFn w).toNat ≤ 1 → reqUv w = true ∧ (reqUnit w).toNat < 16) ∧
      (2 ≤ (reqFn w).toNat → reqUv w = false ∧ reqUnit w = 0) := by
  rw [exists_decode_eq_ok_iff, invalidCauses_eq_nil_iff, namesUnit_functionOfField_iff,
    namesUnit_functionOfField_eq_false_iff]

/-- An index cut to the four bits of its ROM is the low four bits of its field. -/
theorem setWidth_reqHouse (w : Word) : (reqHouse w).setWidth 4 = w.extractLsb' 0 4 :=
  BitVec.setWidth_extractLsb'_of_le (by decide)

theorem setWidth_reqUnit (w : Word) : (reqUnit w).setWidth 4 = w.extractLsb' 8 4 :=
  BitVec.setWidth_extractLsb'_of_le (by decide)

theorem triple_of_decode_eq_ok {w : Word} {i : Instr} (h : decode w = .ok i) :
    i.triple = ⟨w.extractLsb' 0 4, if (reqFn w).toNat ≤ 1 then some (w.extractLsb' 8 4) else none,
      functionOfField (reqFn w)⟩ := by
  obtain ⟨-, rfl⟩ := (decode_eq_ok_iff w i).1 h
  simp only [triple_instrOfFields, setWidth_reqHouse, setWidth_reqUnit, namesUnit_functionOfField_iff]

/-- Settles O4: the fields of R45 name the bits, and a decoded instruction's triple is the word's. -/
theorem decodeAcceptsExactlyRule50 : Obligations.DecodeAcceptsExactlyRule50 := by
  intro w
  refine ⟨exists_decode_eq_ok_iff_fields w, fun i h => ?_, (decodeTriple_eq_none_iff w).2⟩
  have ht := triple_of_decode_eq_ok h
  exact ⟨congrArg Triple.house ht,
    (congrArg (fun t => t.function.index) ht).trans (index_functionOfField (reqFn w)),
    congrArg Triple.unit ht, decodeTriple_of_decode_eq_ok h⟩

end Sys2Proof
end

section
/-! SUPPORT. The encoder on a request word that names a unit (R90), and the two units whose patterns are equal (R70). -/

namespace Sys2Proof.Machine

/-! ### The encoder and the unit table -/

/-- ENCODE of ON and OFF is the OR over the fields of the word, whether or not the indices are in range: an index that
`DECODE` refuses (R52 (b), (d)) is one that its ROM refuses (R33). -/
theorem encodeCommand_reqWord_unit (p : Config.Params) {f : FunctionCode} (hf : f.namesUnit = true)
    (unit house : BitVec 5) :
    encodeCommand p (reqWord f.field true unit house) = commandWord p house.toNat (some unit.toNat) f := by
  by_cases hh : house.toNat < 16
  · by_cases hu : unit.toNat < 16
    · simp [encodeCommand, decodeTriple, encodeTriple, hf, hh.not_ge, hu.not_ge, Nat.mod_eq_of_lt hh,
        Nat.mod_eq_of_lt hu]
    · rw [commandWord_unit_out p _ (Nat.not_lt.1 hu)]
      simp [encodeCommand, decodeTriple, hf, Nat.not_lt.1 hu]
  · rw [commandWord_house_out p (Nat.not_lt.1 hh)]
    simp [encodeCommand, decodeTriple, Nat.not_lt.1 hh]

/-- A unit index enters the command word only through its word in `UNIT_ROM`. -/
theorem commandWord_unit_congr (p : Config.Params) (house : Nat) {u v : Nat}
    (h : memRead p .unit u = memRead p .unit v) (f : FunctionCode) :
    commandWord p house (some u) f = commandWord p house (some v) f := by
  simp only [commandWord, unitOperand, h]

theorem encodeCommand_unit_congr (p : Config.Params) {f : FunctionCode} (hf : f.namesUnit = true) {u v : BitVec 5}
    (h : memRead p .unit u.toNat = memRead p .unit v.toNat) (house : BitVec 5) :
    encodeCommand p (reqWord f.field true u house) = encodeCommand p (reqWord f.field true v house) := by
  rw [encodeCommand_reqWord_unit p hf, encodeCommand_reqWord_unit p hf, commandWord_unit_congr p _ h]

/-- A request word enters R133's step only through its command. -/
theorem ruleStep_congr (p : Config.Params) {req req' : Word} (h : encodeCommand p req = encodeCommand p req')
    (rst start : Bool) (b : Block p.phaseTicks) : ruleStep p rst start req b = ruleStep p rst start req' b := by
  simp only [ruleStep_eq, h]

/-! ### Units 9 and 12 -/

theorem memRead_unit9 {p : Config.Params} (hp : Config.Admissible p) : memRead p .unit 8 = some 0x0400#16 :=
  (memRead_unit p (by decide)).trans (congrArg some hp.unit9)

theorem memRead_unit12 {p : Config.Params} (hp : Config.Admissible p) : memRead p .unit 11 = some 0x0400#16 :=
  (memRead_unit p (by decide)).trans (congrArg some hp.unit12)

/-- Settles O23: the two units' ROM words are equal, so the commands are, and a step sees no more of a request. -/
theorem unitTwelveSendsUnitNinesPattern : Obligations.UnitTwelveSendsUnitNinesPattern := by
  intro p house hp
  have hrom : memRead p .unit (11#5).toNat = memRead p .unit (8#5).toNat :=
    (memRead_unit12 hp).trans (memRead_unit9 hp).symm
  have hon : encodeCommand p (encode (.switchOn house 11)) = encodeCommand p (encode (.switchOn house 8)) :=
    encodeCommand_unit_congr p (f := .switchOn) rfl hrom house
  have hoff : encodeCommand p (encode (.switchOff house 11)) = encodeCommand p (encode (.switchOff house 8)) :=
    encodeCommand_unit_congr p (f := .switchOff) rfl hrom house
  exact ⟨memRead_unit9 hp, memRead_unit12 hp, hon, hoff,
    fun b rst start => ⟨ruleStep_congr p hon rst start b, ruleStep_congr p hoff rst start b⟩⟩

end Sys2Proof.Machine
end

section
/-! SUPPORT. The value of a run of digits (R83). -/

namespace Sys2Proof.Machine

/-! ### The value of a run of digits -/

@[simp] theorem digitsValue_nil : digitsValue [] = 0 := rfl

/-- A leading zero leaves the running value at the 0 it starts from (R83). -/
@[simp] theorem digitsValue_zero_cons (digits : Token) : digitsValue (0x30#8 :: digits) = digitsValue digits := rfl

/-- A further digit is the last step of the fold. -/
theorem digitsValue_append_singleton (digits : Token) (d : Char8) :
    digitsValue (digits ++ [d]) = 10 * digitsValue digits + (d.toNat - 0x30) :=
  List.foldl_concat _ 0 d digits

/-- Settles O57: the empty run, a leading zero and a further digit, one equation of the fold each. -/
theorem digitsDenoteANatural : Obligations.DigitsDenoteANatural :=
  ⟨digitsValue_nil, fun digits => ⟨digitsValue_zero_cons digits, digitsValue_append_singleton digits⟩⟩

end Sys2Proof.Machine
end

section
/-! SUPPORT. The encoder on a request word, from the triple `DECODE` gives (R90). -/

namespace Sys2Proof

/-! ### The shape of a decoded triple -/

/-- An instruction's triple has one of the two admitted shapes (R50). -/
theorem Instr.namesUnit_triple (i : Instr) : i.triple.function.namesUnit = i.triple.unit.isSome := by
  cases i <;> rfl

/-- A decoded triple is the triple of the instruction its fields name. -/
theorem namesUnit_of_decodeTriple_eq_some {w : Word} {t : Triple} (h : decodeTriple w = some t) :
    t.function.namesUnit = t.unit.isSome := by
  rw [decodeTriple_eq_ite, Option.ite_none_right_eq_some] at h
  obtain ⟨-, ht⟩ := h
  rw [← Option.some.inj ht]
  exact Instr.namesUnit_triple _

end Sys2Proof

namespace Sys2Proof.Machine

/-! ### The encoder through the decoder -/

theorem encodeCommand_of_decodeTriple_eq_none (p : Config.Params) {req : Word} (h : decodeTriple req = none) :
    encodeCommand p req = none := by
  simp only [encodeCommand, h]

/-- `ENCODE` sees no more of a request word than its triple (R90). -/
theorem encodeCommand_of_decodeTriple_eq_some (p : Config.Params) {req : Word} {t : Triple}
    (h : decodeTriple req = some t) : encodeCommand p req = encodeTriple p t := by
  simp only [encodeCommand, h]

/-- Settles O22: the encoder on the triple, whose 4-bit indices lie inside their ROMs, so that no read fails; an absent
unit's 0x0000 (R34) adds nothing to the OR. -/
theorem encoderIsOrOfPatterns : Obligations.EncoderIsOrOfPatterns := by
  intro p req
  refine ⟨encodeCommand_of_decodeTriple_eq_none p, fun house unit h => ?on, fun house unit h => ?off,
    fun house h => ?bright, fun house h => ?dim, fun t => namesUnit_of_decodeTriple_eq_some⟩
  all_goals rw [encodeCommand_of_decodeTriple_eq_some p h]
  case on => exact commandWord_unit p house.isLt unit.isLt .switchOn
  case off => exact commandWord_unit p house.isLt unit.isLt .switchOff
  case bright => rw [BitVec.or_zero]; exact commandWord_none p house.isLt .bright
  case dim => rw [BitVec.or_zero]; exact commandWord_none p house.isLt .dim

end Sys2Proof.Machine
end

section
/-! SUPPORT. The frame as the three fields it is assembled from (R105), and the frame as a number. -/

namespace Sys2Proof.Machine

/-! ### The fields of the frame -/

@[simp] theorem extractLsb'_header_frame (cmd : Word) : (frame cmd).extractLsb' 24 16 = header :=
  calc (frame cmd).extractLsb' 24 16
    _ = (header ++ cmd).extractLsb' 16 16 := BitVec.extractLsb'_append_eq_of_le (by decide)
    _ = header := BitVec.extractLsb'_append_eq_left

@[simp] theorem extractLsb'_command_frame (cmd : Word) : (frame cmd).extractLsb' 8 16 = cmd :=
  calc (frame cmd).extractLsb' 8 16
    _ = (header ++ cmd).extractLsb' 0 16 := BitVec.extractLsb'_append_eq_of_le (by decide)
    _ = cmd := BitVec.extractLsb'_append_eq_right

@[simp] theorem extractLsb'_footer_frame (cmd : Word) : (frame cmd).extractLsb' 0 8 = footer :=
  BitVec.extractLsb'_append_eq_right

/-! ### The frame as a number -/

/-- Each field stands shifted to its place (R105). -/
theorem toNat_frame (cmd : Word) :
    (frame cmd).toNat = header.toNat <<< 24 ||| cmd.toNat <<< 8 ||| footer.toNat :=
  calc (frame cmd).toNat
    _ = (header ++ cmd).toNat <<< 8 ||| footer.toNat := BitVec.toNat_append _ _
    _ = (header.toNat <<< 16 ||| cmd.toNat) <<< 8 ||| footer.toNat := by rw [BitVec.toNat_append]
    _ = header.toNat <<< 24 ||| cmd.toNat <<< 8 ||| footer.toNat := by
      rw [Nat.shiftLeft_or_distrib, ← Nat.shiftLeft_add]

/-- The frame with a command of zero: the constant of R105. -/
theorem toNat_header_or_toNat_footer : header.toNat <<< 24 ||| footer.toNat = 0xD5AA0000AD := rfl

/-- R105's number: the two constant fields as one, and the command in the gap between them. -/
theorem toNat_frame_eq_or_command (cmd : Word) : (frame cmd).toNat = 0xD5AA0000AD ||| cmd.toNat <<< 8 := by
  rw [toNat_frame, Nat.or_right_comm, toNat_header_or_toNat_footer]

/-- Settles O29: each field is read back from the append that put it there, and the number is the OR of the fields at
their places. -/
theorem frameFields : Obligations.FrameFields := fun cmd =>
  ⟨extractLsb'_header_frame cmd, extractLsb'_command_frame cmd, extractLsb'_footer_frame cmd,
    toNat_frame_eq_or_command cmd⟩

end Sys2Proof.Machine
end

section
/-! SUPPORT. The clock edge with `rst = 0`: a request is presented with its command (R127, R132), and a cycle that takes
no request is the sequencer's (R128 to R131). -/

namespace Sys2Proof.Machine

/-! ### The command of a decoded request -/

/-- The command an instruction presents: the encoder on its own indices (R91 to R94). -/
def instrCommand (p : Config.Params) : Instr → Option Word
  | .switchOn house unit => commandWord p house.toNat (some unit.toNat) .switchOn
  | .switchOff house unit => commandWord p house.toNat (some unit.toNat) .switchOff
  | .bright house => commandWord p house.toNat none .bright
  | .dim house => commandWord p house.toNat none .dim

theorem exec_eq_present_instrCommand (i : Instr) (s : State) :
    exec i s = .next (onBlock (present params (instrCommand params i)) s) := by
  cases i <;> rfl

/-- In-range indices survive the cut to the four bits of their ROM. -/
theorem encodeTriple_instrOfFields (p : Config.Params) (f : FunctionCode) {house unit : BitVec 5}
    (hh : house.toNat < 16) (hu : f.namesUnit = true → unit.toNat < 16) :
    encodeTriple p (instrOfFields f house unit).triple = instrCommand p (instrOfFields f house unit) := by
  have hhouse := Nat.mod_eq_of_lt hh
  cases f with
  | switchOn => simp [encodeTriple, instrOfFields, Instr.triple, instrCommand, hhouse, Nat.mod_eq_of_lt (hu rfl)]
  | switchOff => simp [encodeTriple, instrOfFields, Instr.triple, instrCommand, hhouse, Nat.mod_eq_of_lt (hu rfl)]
  | bright => simp [encodeTriple, instrOfFields, Instr.triple, instrCommand, hhouse]
  | dim => simp [encodeTriple, instrOfFields, Instr.triple, instrCommand, hhouse]

theorem encodeCommand_of_decode_eq_ok (p : Config.Params) {req : Word} {i : Instr} (h : decode req = .ok i) :
    encodeCommand p req = instrCommand p i := by
  rw [encodeCommand_of_decodeTriple_eq_some p (decodeTriple_of_decode_eq_ok h)]
  obtain ⟨hvalid, rfl⟩ := (decode_eq_ok_iff req i).1 h
  obtain ⟨-, hhouse, hunit, -⟩ := (invalidCauses_eq_nil_iff req).1 hvalid
  exact encodeTriple_instrOfFields p _ hhouse fun hf => (hunit hf).2

theorem encodeCommand_of_decode_eq_error (p : Config.Params) {req : Word} {causes : List InvalidCause}
    (h : decode req = .error causes) : encodeCommand p req = none :=
  encodeCommand_of_decodeTriple_eq_none p ((decodeTriple_eq_none_iff req).2 fun i hi => by cases h.symm.trans hi)

/-! ### The step in a cycle with `rst = 0` -/

/-- A cycle with `start = 1` presents what `ENCODE` makes of the word, valid or Invalid. -/
theorem step_of_request {s : State} {req : Word} (he : currentEvent s = .cycle false true req) :
    step s = .next (onBlock (present params (encodeCommand params req)) (consume s)) := by
  simp only [step, clockEdge, he, inputCycle, requestCycle, Bool.false_eq_true, if_false, if_true]
  cases hd : decode req with
  | ok i => rw [encodeCommand_of_decode_eq_ok params hd]; exact exec_eq_present_instrCommand i _
  | error causes => rw [encodeCommand_of_decode_eq_error params hd]

/-- A busy block does not look at `start` and `req`, and an idle one does not look at `req` without `start` (R127,
R132). -/
theorem step_of_no_request {s : State} {start : Bool} {req : Word} (he : currentEvent s = .cycle false start req)
    (hs : s.st ≠ .idle ∨ start = false) : step s = .next (onBlock (sequencerStep params) (consume s)) := by
  cases start with
  | false => simp only [step, clockEdge, he, inputCycle, Bool.false_eq_true, if_false]
  | true =>
    have hbusy : s.st ≠ .idle := hs.resolve_right nofun
    rw [step_of_request he, onBlock, consume_toBlock, present_busy params _ hbusy]
    rfl

/-- Settles O12: the three accept steps, and in a busy state the sequencer's step, which reads no input and keeps
CMD. -/
theorem acceptStep : Obligations.AcceptStep := by
  intro s start req he
  refine ⟨fun hs hstart => ?none, fun hs hstart henc => ?invalid, fun e hs hstart henc => ?valid,
    fun hs start' req' => ?unread, fun hs t ht => ?keepsCmd⟩
  case none =>
    rw [step_of_no_request he (.inr hstart), onBlock, consume_toBlock, sequencerStep_idle params hs]
    rfl
  case invalid =>
    subst hstart
    rw [step_of_request he, henc, onBlock, consume_toBlock, present_invalid params hs]
    rfl
  case valid =>
    subst hstart
    rw [step_of_request he, henc, onBlock, consume_toBlock, present_valid params e hs]
    rfl
  case unread =>
    rw [step_of_no_request he (.inl hs)]
    exact step_of_no_request (s := { s with host := .cycle false start' req' :: s.host.tail }) rfl (.inl hs)
  case keepsCmd =>
    rw [step_of_no_request he (.inl hs)] at ht
    cases ht
    exact sequencerStep_cmd params s.toBlock

/-! ### The timed steps -/

/-- The first bit of every frame, the header's, is 1 (R54). -/
theorem getLsbD_frame_first (cmd : Word) : (frame cmd).getLsbD 39 = true := by
  rw [getLsbD_frame]
  rfl

theorem enterMark_first {ticks : Nat} (b : Block ticks) :
    enterMark 39 b = enterPhase .mark ⟨true, false⟩ { b with bcnt := 39 } :=
  congrArg (fun bit => enterPhase .mark (markLines bit) { b with bcnt := 39 }) (getLsbD_frame_first b.cmd)

/-- A timed step of the machine, from what the sequencer does with the block. -/
theorem step_of_sequencerStep_eq {s : State} {start : Bool} {req : Word} {b : Block params.phaseTicks}
    (he : currentEvent s = .cycle false start req) (hs : s.st ≠ .idle) (h : sequencerStep params s.toBlock = b) :
    step s = .next { toBlock := b, host := s.host.tail } := by
  rw [step_of_no_request he (.inl hs), ← h]
  rfl

/-- Settles O13: the sequencer's equation of each state, TMR running or at its end. -/
theorem sequencerTimedStep : Obligations.SequencerTimedStep := by
  intro s start req he
  have busy_of {q : SeqState} (h : s.st = q) (hq : q ≠ .idle) : s.st ≠ .idle := h ▸ hq
  refine ⟨fun hs ht => ?hold, fun hs ht => ?rst0, fun hs ht => ?rst1, fun hs ht => ?mark, fun b hs ht hb => ?rest,
    fun hs ht hb => ?last⟩
  case hold => exact step_of_sequencerStep_eq he hs (sequencerStep_hold params hs ht)
  case rst0 => exact step_of_sequencerStep_eq he (busy_of hs nofun) (sequencerStep_rst0 params hs ht)
  case rst1 =>
    exact step_of_sequencerStep_eq he (busy_of hs nofun) ((sequencerStep_rst1 params hs ht).trans (enterMark_first _))
  case mark => exact step_of_sequencerStep_eq he (busy_of hs nofun) (sequencerStep_mark params hs ht)
  case rest =>
    have hpred : bcntPred s.bcnt = b := Fin.ext (by simp [hb])
    have hne : s.bcnt ≠ 0 := fun h => by simp [h] at hb
    exact step_of_sequencerStep_eq he (busy_of hs nofun) (hpred ▸ sequencerStep_rest params hs ht hne)
  case last =>
    exact step_of_sequencerStep_eq he (busy_of hs nofun) (sequencerStep_last params hs ht (Fin.ext hb))

end Sys2Proof.Machine
end

section
/-! SUPPORT. What is left of a send: the phases after the one in progress and the lines of the cycles to come, which are
those of `SEND(CMD)` (R126), and that no request counts until they are over (R132, R134). -/

namespace Sys2Proof.Machine

/-! ### The phases and the lines left -/

/-- The phases after the one in progress, the rest of `SEND(CMD)`; none in `IDLE` (R28, R126). -/
def phasesLeft {ticks : Nat} (b : Block ticks) : List Lines :=
  match b.st with
  | .idle => []
  | .rst0 => restLines :: transmit (frame b.cmd)
  | .rst1 => transmit (frame b.cmd)
  | .mark => restLines :: transmitBelow (frame b.cmd) b.bcnt.val
  | .rest => transmitBelow (frame b.cmd) b.bcnt.val

/-- The lines after each edge from here to the one that ends the send; none in `IDLE` (R135). -/
def linesLeft (p : Config.Params) (b : Block p.phaseTicks) : List Lines :=
  if b.st = .idle then []
  else List.replicate b.tmr.toNat (lines b) ++ (phasesLeft b).flatMap (List.replicate p.phaseTicks) ++ [p.idleLines]

theorem linesLeft_idle (p : Config.Params) {b : Block p.phaseTicks} (h : b.st = .idle) : linesLeft p b = [] :=
  if_pos h

theorem linesLeft_busy (p : Config.Params) {b : Block p.phaseTicks} (h : b.st ≠ .idle) :
    linesLeft p b =
      List.replicate b.tmr.toNat (lines b) ++ (phasesLeft b).flatMap (List.replicate p.phaseTicks) ++ [p.idleLines] :=
  if_neg h

theorem cyclesLeft_idle (p : Config.Params) {b : Block p.phaseTicks} (h : b.st = .idle) : cyclesLeft p b = 0 := by
  simp only [cyclesLeft, phaseIndex, h]

theorem cyclesLeft_busy (p : Config.Params) {b : Block p.phaseTicks} (h : b.st ≠ .idle) :
    cyclesLeft p b = (phasesLeft b).length * p.phaseTicks + b.tmr.toNat + 1 := by
  have hk := b.bcnt.isLt
  cases hs : b.st with
  | idle => exact absurd hs h
  | rst0 => simp [cyclesLeft, phaseIndex, phasesLeft, hs]
  | rst1 => simp [cyclesLeft, phaseIndex, phasesLeft, hs]
  | mark =>
    have : 81 - (2 + 2 * (39 - b.bcnt.val)) = 2 * b.bcnt.val + 1 := by omega
    simp [cyclesLeft, phaseIndex, phasesLeft, hs, this]
  | rest =>
    have : 81 - (3 + 2 * (39 - b.bcnt.val)) = 2 * b.bcnt.val := by omega
    simp [cyclesLeft, phaseIndex, phasesLeft, hs, this]

@[simp] theorem length_linesLeft (p : Config.Params) (b : Block p.phaseTicks) :
    (linesLeft p b).length = cyclesLeft p b := by
  by_cases h : b.st = .idle
  · simp [linesLeft_idle p h, cyclesLeft_idle p h]
  · simp [linesLeft_busy p h, cyclesLeft_busy p h]; omega

/-! ### The timed step and what is left -/

/-- Entering the mark phase of bit `k` takes the first phase from those of the bits up to `k` (R113, R129). -/
theorem transmitBelow_succ {ticks : Nat} (k : Fin 40) (b : Block ticks) :
    transmitBelow (frame b.cmd) (k.val + 1) = lines (enterMark k b) :: phasesLeft (enterMark k b) := rfl

/-- A timed step counts down, or goes on to the first of the phases left, or ends the send when none is left. -/
theorem sequencerStep_busy_cases (p : Config.Params) {b : Block p.phaseTicks} (h : b.st ≠ .idle) :
    (b.tmr.toNat = (sequencerStep p b).tmr.toNat + 1 ∧ (sequencerStep p b).st ≠ .idle ∧
      lines (sequencerStep p b) = lines b ∧ phasesLeft (sequencerStep p b) = phasesLeft b) ∨
    (b.tmr.toNat = 0 ∧ (sequencerStep p b).st ≠ .idle ∧ (sequencerStep p b).tmr.toNat = p.phaseTicks - 1 ∧
      phasesLeft b = lines (sequencerStep p b) :: phasesLeft (sequencerStep p b)) ∨
    (b.tmr.toNat = 0 ∧ phasesLeft b = [] ∧ sequencerStep p b = release p b) := by
  by_cases ht : b.tmr = 0
  · have h0 : b.tmr.toNat = 0 := by simp [ht]
    rcases sequencerStep_cases p b with ⟨hs, -⟩ | ⟨-, ht', -⟩ | ⟨hs, -, hq⟩ | ⟨hs, -, hq⟩ | ⟨hs, -, hq⟩ |
      ⟨hs, -, hb, hq⟩ | ⟨hs, -, hb, hq⟩
    · exact absurd hs h
    · exact absurd ht ht'
    · exact .inr (.inl ⟨h0, by simp [hq, phasesLeft, hs]⟩)
    · have hleft : phasesLeft b = transmitBelow (frame b.cmd) ((39 : Fin 40).val + 1) := by
        rw [phasesLeft, hs]; rfl
      exact .inr (.inl ⟨h0, by simp [hq], by simp [hq], by rw [hq, hleft, transmitBelow_succ]⟩)
    · exact .inr (.inl ⟨h0, by simp [hq, phasesLeft, hs]⟩)
    · have hleft : phasesLeft b = transmitBelow (frame b.cmd) ((bcntPred b.bcnt).val + 1) := by
        have : b.bcnt.val ≠ 0 := Fin.val_ne_iff.2 hb
        rw [phasesLeft, hs, bcntPred_val, Nat.sub_add_cancel (Nat.pos_of_ne_zero this)]
      exact .inr (.inl ⟨h0, by simp [hq], by simp [hq], by rw [hq, hleft, transmitBelow_succ]⟩)
    · exact .inr (.inr ⟨h0, by simp [phasesLeft, hs, hb, transmitBelow], hq⟩)
  · have hpos : b.tmr.toNat ≠ 0 := fun h0 => ht (BitVec.eq_of_toNat_eq (by simpa using h0))
    rw [sequencerStep_hold p h ht]
    exact .inl ⟨by rw [toNat_timer_sub_one ht]; omega, h, rfl, rfl⟩

/-- A step uses up at most one of the cycles left. -/
theorem cyclesLeft_le_sequencerStep (p : Config.Params) (b : Block p.phaseTicks) :
    cyclesLeft p b ≤ cyclesLeft p (sequencerStep p b) + 1 := by
  by_cases hs : b.st = .idle
  · simp [cyclesLeft_idle p hs]
  rw [cyclesLeft_busy p hs]
  rcases sequencerStep_busy_cases p hs with ⟨ht, hs', -, hleft⟩ | ⟨ht, hs', htmr, hleft⟩ | ⟨ht, hleft, -⟩
  · rw [cyclesLeft_busy p hs', hleft]
    omega
  · rw [cyclesLeft_busy p hs', hleft, List.length_cons, Nat.succ_mul]
    omega
  · simp [hleft, ht]

/-- A phase of at least one cycle: its first and the rest. -/
theorem replicate_eq_cons {n : Nat} (hn : 1 ≤ n) (l : Lines) : List.replicate n l = l :: List.replicate (n - 1) l := by
  rw [← List.replicate_succ, Nat.sub_add_cancel hn]

/-- A timed step drives the first of the lines left. -/
theorem linesLeft_eq_cons {p : Config.Params} {b : Block p.phaseTicks} (hN : 1 ≤ p.phaseTicks) (hs : b.st ≠ .idle) :
    linesLeft p b = lines (sequencerStep p b) :: linesLeft p (sequencerStep p b) := by
  rw [linesLeft_busy p hs]
  rcases sequencerStep_busy_cases p hs with ⟨ht, hs', hlines, hleft⟩ | ⟨ht, hs', htmr, hleft⟩ | ⟨ht, hleft, hq⟩
  · simp [linesLeft_busy p hs', ht, hlines, hleft, List.replicate_succ]
  · simp [linesLeft_busy p hs', ht, htmr, hleft, replicate_eq_cons hN (lines _)]
  · simp [hq, hleft, ht, linesLeft_idle p (release_st p b)]

/-! ### Runs while busy -/

/-- Whatever the host drives on `start` and `req`, a send goes on to its end (R132, R135). -/
theorem lineTrace_linesLeft {p : Config.Params} (hN : 1 ≤ p.phaseTicks) (b : Block p.phaseTicks) (inputs : List Inputs)
    (h : inputs.length = cyclesLeft p b) :
    lineTrace p b inputs = linesLeft p b ∧ (runRule p b inputs).st = .idle := by
  induction inputs generalizing b with
  | nil =>
    have hs : b.st = .idle := by
      by_contra hs
      simp [cyclesLeft_busy p hs] at h
    exact ⟨(linesLeft_idle p hs).symm, hs⟩
  | cons i rest ih =>
    obtain ⟨start, req⟩ := i
    have hs : b.st ≠ .idle := fun hs => by simp [cyclesLeft_idle p hs] at h
    have hcons := linesLeft_eq_cons hN hs
    have hrest : rest.length = cyclesLeft p (sequencerStep p b) := by
      have := congrArg List.length hcons
      simp only [length_linesLeft, List.length_cons] at this h
      omega
    obtain ⟨htrace, hend⟩ := ih _ hrest
    rw [lineTrace, runRule_cons, ruleStep_quiet p b start req (.inl hs), hcons, htrace]
    exact ⟨rfl, hend⟩

/-- Settles O38: while busy a step is the sequencer's on either input, and it leaves enough cycles for the rest. -/
theorem requestsWhileBusyAreLost : Obligations.RequestsWhileBusyAreLost := by
  intro p b inputs inputs' hlen hleft
  induction inputs generalizing b inputs' with
  | nil => rw [List.length_eq_zero_iff.1 hlen.symm]
  | cons i rest ih =>
    obtain ⟨i', rest', rfl⟩ := List.exists_cons_of_length_eq_add_one hlen.symm
    have hs : b.st ≠ .idle := fun hs => by simp [cyclesLeft_idle p hs] at hleft
    have hrest : rest.length ≤ cyclesLeft p (sequencerStep p b) := by
      have := cyclesLeft_le_sequencerStep p b
      rw [List.length_cons] at hleft
      omega
    rw [runRule_cons, runRule_cons, ruleStep_quiet p b _ _ (.inl hs), ruleStep_quiet p b _ _ (.inl hs)]
    exact ih _ _ (by simpa using hlen) hrest

/-! ### One send after another -/

theorem ruleStep_accept (p : Config.Params) {b : Block p.phaseTicks} {req cmd : Word} (hs : b.st = .idle)
    (henc : encodeCommand p req = some cmd) : ruleStep p false true req b = beginSend cmd b := by
  simp [ruleStep_eq, henc, present_valid p cmd hs]

/-- The accept drives the first of the lines of a send. -/
theorem lines_cons_linesLeft_beginSend {p : Config.Params} (hN : 1 ≤ p.phaseTicks) (cmd : Word) (b : Block p.phaseTicks) :
    lines (beginSend cmd b) :: linesLeft p (beginSend cmd b) = sendTrace p cmd ++ [p.idleLines] := by
  rw [linesLeft_busy p (by simp)]
  simp [sendTrace, sendPhases, replicate_eq_cons hN linesOff, phasesLeft]

theorem cyclesLeft_beginSend {p : Config.Params} (hN : 1 ≤ p.phaseTicks) (cmd : Word) (b : Block p.phaseTicks) :
    cyclesLeft p (beginSend cmd b) = 82 * p.phaseTicks := by
  rw [cyclesLeft_busy p (by simp)]
  simp [phasesLeft]
  omega

/-- A valid request in an idle block: the lines of its send and of the cycle that ends it, with the block idle again,
whatever the host drives meanwhile (R135). -/
theorem lineTrace_accept {p : Config.Params} {b : Block p.phaseTicks} {req cmd : Word} {inputs : List Inputs}
    (hN : 1 ≤ p.phaseTicks) (hs : b.st = .idle) (henc : encodeCommand p req = some cmd)
    (hlen : inputs.length = 82 * p.phaseTicks) :
    lineTrace p b ((true, req) :: inputs) = sendTrace p cmd ++ [p.idleLines] ∧
      (runRule p b ((true, req) :: inputs)).st = .idle := by
  obtain ⟨htrace, hend⟩ :=
    lineTrace_linesLeft hN (beginSend cmd b) inputs (hlen.trans (cyclesLeft_beginSend hN cmd b).symm)
  rw [lineTrace, runRule_cons, ruleStep_accept p hs henc, htrace, lines_cons_linesLeft_beginSend hN]
  exact ⟨rfl, hend⟩

/-- Settles O37, by induction on the number of sends: each round begins and ends in an idle block. -/
theorem startHeldSendsAgain : Obligations.StartHeldSendsAgain := by
  intro p b req cmd n hN hs henc
  induction n generalizing b with
  | zero => simp [lineTrace]
  | succ n ih =>
    obtain ⟨htrace, hend⟩ := lineTrace_accept (inputs := List.replicate (82 * p.phaseTicks) (true, req)) hN hs henc
      List.length_replicate
    rw [← List.replicate_succ] at htrace hend
    rw [Nat.succ_mul, Nat.add_comm, List.replicate_add, lineTrace_append, htrace, ih _ hend, List.replicate_succ,
      List.flatten_cons]

end Sys2Proof.Machine
end

section
/-! SUPPORT. The one exception, InvalidCommand, for the words the decoder refuses (R143). -/

namespace Sys2Proof.Machine

/-- The encoder gives no command for a word the decoder refuses: R50 and the instruction decoder refuse the same
words. -/
theorem encodeCommand_of_decode_ne_ok (p : Config.Params) {req : Word} (h : ∀ i, decode req ≠ .ok i) :
    encodeCommand p req = none :=
  encodeCommand_of_decodeTriple_eq_none p ((decodeTriple_eq_none_iff req).2 h)

/-- Settles O14: a refused word has no command, so its accept step is the Invalid one. -/
theorem invalidCommandSetsOnlyFlags : Obligations.InvalidCommandSetsOnlyFlags := by
  intro s req he hidle hrefused
  obtain ⟨-, hinvalid, -⟩ := acceptStep s true req he
  exact hinvalid hidle rfl (encodeCommand_of_decode_ne_ok params hrefused)

end Sys2Proof.Machine
end

section
/-! SUPPORT. The clock edge with `rst = 1` (R160, R163). -/

namespace Sys2Proof.Machine

/-- Reset comes first in the order of R145: the block's old registers, `start` and `req` do not matter. -/
theorem step_of_hard_reset {s : State} {start : Bool} {req : Word} (he : currentEvent s = .cycle true start req) :
    step s = .next { toBlock := Block.reset params, host := s.host.tail } := by
  simp only [step, clockEdge, he, inputCycle, if_true]
  rfl

/-- This hardware's reset registers written out: its lines idle at (0,0) (R25). -/
theorem reset_params_eq :
    Block.reset params = { st := .idle, bcnt := 0, tmr := 0, cmd := 0x0000#16, rts := false, dtr := false,
                           done := false, inv := false } := by
  decide

/-- Settles O11: the edge takes the block to its reset registers, whose values are R25's. -/
theorem hardwareResetClearsEveryState : Obligations.HardwareResetClearsEveryState := by
  intro s start req he
  rw [step_of_hard_reset he, reset_params_eq]

end Sys2Proof.Machine
end

section
/-! SUPPORT. The round trips of the request word, of instructions and of triples (R60), and the opcode map (R51). -/

namespace Sys2Proof

/-! ### An instruction and its fields -/

theorem Instr.exists_eq_instrOfFields (i : Instr) : ∃ f house unit, i = instrOfFields f house unit := by
  cases i with
  | switchOn house unit => exact ⟨.switchOn, house, unit, rfl⟩
  | switchOff house unit => exact ⟨.switchOff, house, unit, rfl⟩
  | bright house => exact ⟨.bright, house, 0, rfl⟩
  | dim house => exact ⟨.dim, house, 0, rfl⟩

theorem wellFormed_instrOfFields_iff (f : FunctionCode) (house unit : BitVec 5) :
    (instrOfFields f house unit).wellFormed = true ↔
      house.toNat < 16 ∧ (f.namesUnit = true → unit.toNat < 16) := by
  cases f <;> simp [instrOfFields, Instr.wellFormed, indexInRange, FunctionCode.namesUnit]

/-- The unit field of a request is used by ON and OFF and 0 in BRIGHT and DIM (R45, R60). -/
theorem encode_instrOfFields (f : FunctionCode) (house unit : BitVec 5) :
    encode (instrOfFields f house unit) = reqWord f.field f.namesUnit (if f.namesUnit then unit else 0) house := by
  cases f <;> rfl

/-- BRIGHT and DIM do not hold a unit. -/
theorem instrOfFields_ite_unit (f : FunctionCode) (house unit : BitVec 5) :
    instrOfFields f house (if f.namesUnit then unit else 0) = instrOfFields f house unit := by
  cases f <;> rfl

/-! ### Instructions there and back -/

theorem decode_encode {i : Instr} (h : i.wellFormed = true) : decode (encode i) = .ok i := by
  obtain ⟨f, house, unit, rfl⟩ := i.exists_eq_instrOfFields
  obtain ⟨hhouse, hunit⟩ := (wellFormed_instrOfFields_iff f house unit).1 h
  rw [encode_instrOfFields, decode_eq_ok_iff, invalidCauses_eq_nil_iff]
  cases hf : f.namesUnit with
  | true => simpa [hf] using ⟨hhouse, hunit hf⟩
  | false => simpa [hf] using ⟨hhouse, by simpa [hf] using instrOfFields_ite_unit f house unit⟩

theorem encode_of_decode_eq_ok {w : Word} {i : Instr} (h : decode w = .ok i) :
    i.wellFormed = true ∧ encode i = w := by
  obtain ⟨hvalid, rfl⟩ := (decode_eq_ok_iff w i).1 h
  obtain ⟨hrsv, hhouse, hon, hoff⟩ := (invalidCauses_eq_nil_iff w).1 hvalid
  refine ⟨(wellFormed_instrOfFields_iff _ _ _).2 ⟨hhouse, fun hf => (hon hf).2⟩, ?_⟩
  rw [encode_instrOfFields, field_functionOfField]
  conv_rhs => rw [← reqWord_fields hrsv]
  cases hf : (functionOfField (reqFn w)).namesUnit with
  | true => simp [hon hf]
  | false => simp [hoff hf]

/-- Settles O1: the word of in-range indices has no sub-cause of R141, and its fields are the instruction's. -/
theorem decodeEncodeRoundTrip : Obligations.DecodeEncodeRoundTrip := fun _ => decode_encode

/-- Settles O2: a valid word has no reserved bit, so it is the word of its fields, which the encoder puts back. -/
theorem encodeDecodeRoundTrip : Obligations.EncodeDecodeRoundTrip := fun _ _ => encode_of_decode_eq_ok

/-! ### Triples there and back -/

theorem pack_eq_reqWord (t : Triple) :
    pack t = reqWord t.function.field t.unit.isSome ((t.unit.map (BitVec.setWidth 5)).getD 0) (t.house.setWidth 5) := by
  obtain ⟨house, unit, f⟩ := t
  cases unit <;> rfl

/-- The 4-bit indices of a triple fit into their ROMs. -/
theorem exists_instr_of_admitted {t : Triple} (h : t.admitted = true) :
    ∃ i : Instr, i.wellFormed = true ∧ i.triple = t ∧ encode i = pack t := by
  obtain ⟨house, unit, f⟩ := t
  have hshape : f.namesUnit = unit.isSome := beq_iff_eq.1 h
  refine ⟨instrOfFields f (house.setWidth 5) ((unit.map (BitVec.setWidth 5)).getD 0), ?_, ?_, ?_⟩
  · rw [wellFormed_instrOfFields_iff]
    cases unit <;> simp <;> omega
  · rw [triple_instrOfFields, hshape]
    cases unit <;> simp
  · rw [encode_instrOfFields, pack_eq_reqWord, hshape]
    cases unit <;> rfl

/-- An index in range survives the cut to the four bits of its ROM. -/
theorem setWidth_setWidth_of_lt {index : BitVec 5} (h : index.toNat < 16) : (index.setWidth 4).setWidth 5 = index :=
  BitVec.eq_of_toNat_eq (by simp [Nat.mod_eq_of_lt h]; omega)

theorem pack_triple {i : Instr} (h : i.wellFormed = true) : pack i.triple = encode i := by
  obtain ⟨f, house, unit, rfl⟩ := i.exists_eq_instrOfFields
  obtain ⟨hhouse, hunit⟩ := (wellFormed_instrOfFields_iff f house unit).1 h
  rw [triple_instrOfFields, encode_instrOfFields, pack_eq_reqWord, setWidth_setWidth_of_lt hhouse]
  cases hf : f.namesUnit with
  | true => simp [setWidth_setWidth_of_lt (hunit hf)]
  | false => rfl

theorem decodeTriple_eq_some_iff (w : Word) (t : Triple) :
    decodeTriple w = some t ↔ ∃ i, decode w = .ok i ∧ i.triple = t := by
  simp only [decodeTriple_eq_ite, decode_eq_ok_iff]
  by_cases h : invalidCauses w = [] <;> simp [h]

theorem decodeTriple_pack {t : Triple} (h : t.admitted = true) : decodeTriple (pack t) = some t := by
  obtain ⟨i, hwf, rfl, hword⟩ := exists_instr_of_admitted h
  rw [← hword, decodeTriple_of_decode_eq_ok (decode_encode hwf)]

theorem pack_of_decodeTriple_eq_some {w : Word} {t : Triple} (h : decodeTriple w = some t) : pack t = w := by
  obtain ⟨i, hi, rfl⟩ := (decodeTriple_eq_some_iff w t).1 h
  obtain ⟨hwf, hword⟩ := encode_of_decode_eq_ok hi
  rw [pack_triple hwf, hword]

/-- Settles O3: PACK is the word of the triple's fields, and the inverse of DECODE through the instruction of the
triple. -/
theorem packInvertsDecode : Obligations.PackInvertsDecode := by
  refine ⟨fun t => ?_, fun _ => decodeTriple_pack, fun _ _ => pack_of_decodeTriple_eq_some⟩
  rw [pack_eq_reqWord]
  exact ⟨reqFn_reqWord _ _ _ _, reqUv_reqWord _ _ _ _, reqUnit_reqWord _ _ _ _, reqRsv_reqWord _ _ _ _,
    reqHouse_reqWord _ _ _ _⟩

/-! ### The rows of the opcode map -/

/-- A word decodes to an instruction of the function and the indices its fields name. -/
theorem decode_of_fields {w : Word} (hrsv : reqRsv w = 0) (hhouse : (reqHouse w).toNat < 16)
    (huv : reqUv w = (functionOfField (reqFn w)).namesUnit)
    (hunit : if (functionOfField (reqFn w)).namesUnit then (reqUnit w).toNat < 16 else reqUnit w = 0) :
    decode w = .ok (instrOfFields (functionOfField (reqFn w)) (reqHouse w) (reqUnit w)) := by
  refine (decode_eq_ok_iff w _).2 ⟨(invalidCauses_eq_nil_iff w).2 ⟨hrsv, hhouse, fun hf => ?_, fun hf => ?_⟩, rfl⟩
  · exact ⟨huv.trans hf, by simpa [hf] using hunit⟩
  · exact ⟨huv.trans hf, by simpa [hf] using hunit⟩

/-- The row of a function (R51). -/
theorem row_instrOfFields (f : FunctionCode) (house unit : BitVec 5) :
    (instrOfFields f house unit).row = (instrOfFields f 0 0).row := by
  cases f <;> rfl

theorem row_mem_opcodeMap (i : Instr) : i.row ∈ opcodeMap := by
  cases i <;> simp [opcodeMap, Instr.row]

theorem exists_function_of_mem_opcodeMap {r : OpcodeRow} (h : r ∈ opcodeMap) :
    ∃ f, r = (instrOfFields f 0 0).row := by
  simp only [opcodeMap, List.mem_cons, List.not_mem_nil, or_false] at h
  rcases h with rfl | rfl | rfl | rfl
  · exact ⟨.switchOn, rfl⟩
  · exact ⟨.switchOff, rfl⟩
  · exact ⟨.bright, rfl⟩
  · exact ⟨.dim, rfl⟩

theorem matches_row_of_decode_eq_ok {w : Word} {i : Instr} (h : decode w = .ok i) :
    w &&& i.row.mask = i.row.pattern := by
  obtain ⟨hwf, rfl⟩ := encode_of_decode_eq_ok h
  have hrow : Laws.RowMatch.Statement i := by
    cases i with
    | switchOn house unit => exact Laws.RowMatch.switchOn house unit
    | switchOff house unit => exact Laws.RowMatch.switchOff house unit
    | bright house => exact Laws.RowMatch.bright house
    | dim house => exact Laws.RowMatch.dim house
  exact beq_iff_eq.1 (hrow hwf)

/-- A masked word, field by field. -/
theorem fields_of_and_eq {w m v : Word} (h : w &&& m = v) :
    reqFn w &&& reqFn m = reqFn v ∧ (reqUv w && reqUv m) = reqUv v ∧ reqUnit w &&& reqUnit m = reqUnit v ∧
      reqRsv w &&& reqRsv m = reqRsv v ∧ reqHouse w &&& reqHouse m = reqHouse v := by
  subst h
  simp only [reqFn, reqUv, reqUnit, reqRsv, reqHouse, BitVec.extractLsb'_and, BitVec.getLsbD_and, and_self]

/-- An index whose fifth bit is clear is in range. -/
theorem lt_of_and_sixteen_eq_zero : ∀ {index : BitVec 5}, index &&& 16#5 = 0#5 → index.toNat < 16 := by decide

/-- What a row's mask leaves free: four bits of the house index, and of the unit index where the row has one (R51). -/
theorem fields_row_mask (f : FunctionCode) :
    reqFn (instrOfFields f 0 0).row.mask = BitVec.allOnes 2 ∧ reqUv (instrOfFields f 0 0).row.mask = true ∧
      reqUnit (instrOfFields f 0 0).row.mask = (if f.namesUnit then 16#5 else BitVec.allOnes 5) ∧
      reqRsv (instrOfFields f 0 0).row.mask = BitVec.allOnes 3 ∧ reqHouse (instrOfFields f 0 0).row.mask = 16#5 := by
  cases f <;> decide

theorem row_pattern (f : FunctionCode) : (instrOfFields f 0 0).row.pattern = reqWord f.field f.namesUnit 0 0 := by
  cases f <;> rfl

theorem exists_decode_of_matches_row {w : Word} (f : FunctionCode)
    (h : w &&& (instrOfFields f 0 0).row.mask = (instrOfFields f 0 0).row.pattern) :
    ∃ i, decode w = .ok i ∧ i.row = (instrOfFields f 0 0).row := by
  obtain ⟨mfn, muv, munit, mrsv, mhouse⟩ := fields_row_mask f
  obtain ⟨hfn, huv, hunit, hrsv, hhouse⟩ := fields_of_and_eq h
  simp only [row_pattern, reqFn_reqWord, reqUv_reqWord, reqUnit_reqWord, reqRsv_reqWord, reqHouse_reqWord, mfn, muv,
    munit, mrsv, mhouse, BitVec.and_allOnes, Bool.and_true] at hfn huv hunit hrsv hhouse
  have hf : functionOfField (reqFn w) = f := by rw [hfn, functionOfField_field]
  refine ⟨_, decode_of_fields hrsv (lt_of_and_sixteen_eq_zero hhouse) (hf.symm ▸ huv) ?_,
    hf ▸ row_instrOfFields _ _ _⟩
  rw [hf]
  cases hn : f.namesUnit with
  | true => exact lt_of_and_sixteen_eq_zero (by simpa [hn] using hunit)
  | false => simpa only [hn, Bool.false_eq_true, if_false, BitVec.and_allOnes] using hunit

theorem matches_row_iff {w : Word} {r : OpcodeRow} (hr : r ∈ opcodeMap) :
    w &&& r.mask = r.pattern ↔ ∃ i, decode w = .ok i ∧ i.row = r := by
  constructor
  · obtain ⟨f, rfl⟩ := exists_function_of_mem_opcodeMap hr
    exact exists_decode_of_matches_row f
  · rintro ⟨i, hi, rfl⟩
    exact matches_row_of_decode_eq_ok hi

/-! ### The valid words -/

theorem mem_validIndices : ∀ index : BitVec 5, index ∈ validIndices ↔ index.toNat < 16 := by decide

theorem nodup_validIndices : validIndices.Nodup := by decide

theorem mem_validInstrs (i : Instr) : i ∈ validInstrs ↔ i.wellFormed = true := by
  cases i <;> simp [validInstrs, mem_validIndices, Instr.wellFormed, indexInRange]

/-- The instructions of one operation on all houses and units are all different. -/
theorem nodup_flatMap_map {op : BitVec 5 → BitVec 5 → Instr} (h : Function.Injective2 op) {l : List (BitVec 5)}
    (hl : l.Nodup) : (l.flatMap fun house => l.map (op house)).Nodup := by
  have hprod := (hl.product hl).map h.uncurry
  have hmap : (l ×ˢ l).map (Function.uncurry op) = l.flatMap fun house => l.map (op house) := by
    simp [SProd.sprod, List.product, List.map_flatMap, Function.comp_def]
  rwa [hmap] at hprod

theorem nodup_validInstrs : validInstrs.Nodup := by
  have hon := nodup_flatMap_map (op := .switchOn) (fun _ _ _ _ h => by simpa using h) nodup_validIndices
  have hoff := nodup_flatMap_map (op := .switchOff) (fun _ _ _ _ h => by simpa using h) nodup_validIndices
  have hbright := nodup_validIndices.map (f := Instr.bright) fun _ _ h => by simpa using h
  have hdim := nodup_validIndices.map (f := Instr.dim) fun _ _ h => by simpa using h
  refine ((hon.append hoff fun i => ?_).append hbright fun i => ?_).append hdim fun i => ?_ <;> cases i <;> simp

theorem nodup_map_encode_validInstrs : (validInstrs.map encode).Nodup := by
  refine nodup_validInstrs.map_on fun i hi j hj h => ?_
  have hok : (.ok i : Except (List InvalidCause) Instr) = .ok j := by
    rw [← decode_encode ((mem_validInstrs i).1 hi), h, decode_encode ((mem_validInstrs j).1 hj)]
  exact Except.ok.inj hok

theorem exists_decode_iff_mem_map_encode (w : Word) : (∃ i, decode w = .ok i) ↔ w ∈ validInstrs.map encode := by
  simp only [List.mem_map, mem_validInstrs]
  constructor
  · rintro ⟨i, hi⟩
    exact ⟨i, encode_of_decode_eq_ok hi⟩
  · rintro ⟨i, hwf, rfl⟩
    exact ⟨i, decode_encode hwf⟩

theorem map_mnemonic_map {op : BitVec 5 → Instr} {name : String} (h : ∀ house, (op house).row.mnemonic = name)
    (l : List (BitVec 5)) : (l.map op).map (fun i => i.row.mnemonic) = List.replicate l.length name :=
  List.eq_replicate_iff.2 ⟨by simp, by simp [h]⟩

theorem map_mnemonic_flatMap_map {op : BitVec 5 → BitVec 5 → Instr} {name : String}
    (h : ∀ house unit, (op house unit).row.mnemonic = name) (l : List (BitVec 5)) :
    (l.flatMap fun house => l.map (op house)).map (fun i => i.row.mnemonic) =
      List.replicate (l.length * l.length) name :=
  List.eq_replicate_iff.2 ⟨by simp, by simp +contextual [h]⟩

/-- The mnemonics of the valid requests, operation by operation. -/
theorem map_mnemonic_validInstrs :
    (validInstrs.map fun i => i.row.mnemonic) =
      List.replicate (16 * 16) "ON" ++ List.replicate (16 * 16) "OFF" ++ List.replicate 16 "BRIGHT" ++
        List.replicate 16 "DIM" := by
  have hlen : validIndices.length = 16 := rfl
  simp only [validInstrs, List.map_append]
  rw [map_mnemonic_flatMap_map (name := "ON") fun _ _ => rfl, map_mnemonic_flatMap_map (name := "OFF") fun _ _ => rfl,
    map_mnemonic_map (name := "BRIGHT") fun _ => rfl, map_mnemonic_map (name := "DIM") fun _ => rfl, hlen]

theorem length_validInstrs : validInstrs.length = 544 := by
  have h := congrArg List.length map_mnemonic_validInstrs
  simpa only [List.length_map, List.length_append, List.length_replicate] using h

/-- Settles O5: the rows over the fields of the word, and the valid words as the encodings of the well-formed
instructions, which the round trip keeps apart. -/
theorem opcodeMapIsExact : Obligations.OpcodeMapIsExact := by
  refine ⟨rfl, fun w r => matches_row_iff, fun w i _ => row_mem_opcodeMap i, nodup_map_encode_validInstrs,
    (List.length_map _).trans length_validInstrs, exists_decode_iff_mem_map_encode, ?on, ?off, ?bright, ?dim⟩
  all_goals
    rw [map_mnemonic_validInstrs]
    simp only [List.count_append, List.count_replicate]
    rfl

/-- Settles O6: each word has one decoding. -/
theorem specWordsDecode : Obligations.SpecWordsDecode := by
  unfold Obligations.SpecWordsDecode
  decide

end Sys2Proof
end

section
/-! SUPPORT. The invariant R26 on the named operations, R133's step and the machine's step. -/

namespace Sys2Proof.Machine

/-! ### The machine's step is R133's -/

/-- Settles O8: in the order of R145, reset, no request and a request presented, each against R133's step. -/
theorem stepIsRule133 : Obligations.StepIsRule133 := by
  intro s rst start req he
  rw [ruleStep_eq]
  cases rst with
  | true => exact step_of_hard_reset he
  | false =>
    cases start with
    | true => exact step_of_request he
    | false => exact step_of_no_request he (.inr rfl)

/-- A step that answers a next state is R133's step on this cycle's inputs. -/
theorem exists_ruleStep_of_step_eq_next {s t : State} (h : step s = .next t) :
    ∃ rst start req, currentEvent s = .cycle rst start req ∧
      t = { toBlock := ruleStep params rst start req s.toBlock, host := s.host.tail } := by
  cases he : currentEvent s with
  | misuse m => simp [step, clockEdge, he] at h
  | cycle rst start req =>
    cases h.symm.trans (stepIsRule133 s rst start req he)
    exact ⟨rst, start, req, rfl, rfl⟩

/-! ### The invariant as one equation of the lines -/

/-- The lines that R26 (a) to (d) gives a state: those of its place in the send, or the idle ones. -/
def placeLines (p : Config.Params) (b : Block p.phaseTicks) : Lines :=
  match b.st with
  | .idle => p.idleLines
  | .rst0 => linesOff
  | .rst1 => restLines
  | .mark => markLines (currentBit b)
  | .rest => restLines

theorem inv_iff (p : Config.Params) (b : Block p.phaseTicks) :
    Inv p b ↔ lines b = placeLines p b ∧ b.tmr.toNat ≤ p.phaseTicks - 1 ∧ ¬ (b.done = true ∧ b.inv = true) ∧
      (b.st ≠ .idle → b.done = false ∧ b.inv = false) := by
  constructor
  · intro h
    refine ⟨?_, h.timer, h.flagsExclusive, fun hs => ?_⟩
    · cases hs : b.st with
      | idle => simp only [placeLines, hs]; exact h.idleLines hs
      | rst0 => simp only [placeLines, hs]; exact h.rst0Lines hs
      | rst1 => simp only [placeLines, hs]; exact h.rst1Lines hs
      | mark => simp only [placeLines, hs]; exact h.markLines hs
      | rest => simp only [placeLines, hs]; exact h.restLines hs
    · simpa using mt h.flagsIdle hs
  · rintro ⟨hl, ht, hx, hbusy⟩
    have hplace {q : SeqState} (hs : b.st = q) : lines b = placeLines p { b with st := q } := by rw [hl, ← hs]
    exact
      { idleLines := hplace
        rst0Lines := hplace
        rst1Lines := hplace
        restLines := hplace
        markLines := hplace
        timer := ht
        flagsExclusive := hx
        flagsIdle := fun hf => by_contra fun hs => by simp [hbusy hs] at hf }

/-! ### Each operation keeps the invariant -/

theorem inv_reset (p : Config.Params) : Inv p (Block.reset p) :=
  (inv_iff p _).2 ⟨rfl, by simp, by simp, by simp⟩

theorem Inv.raiseInvalidCommand {p : Config.Params} {b : Block p.phaseTicks} (h : Inv p b) (hs : b.st = .idle) :
    Inv p (raiseInvalidCommand b) := by
  obtain ⟨hl, ht, -, -⟩ := (inv_iff p b).1 h
  exact (inv_iff p _).2 ⟨hl, ht, by simp, by simp [hs]⟩

theorem inv_beginSend (p : Config.Params) (cmd : Word) (b : Block p.phaseTicks) : Inv p (beginSend cmd b) :=
  (inv_iff p _).2 ⟨rfl, by simp, by simp, by simp⟩

/-- A phase entered in mid-send, where the flags are 0, with the lines of its place. -/
theorem Inv.of_phase_entered {p : Config.Params} {b b' : Block p.phaseTicks} (h : Inv p b) (hs : b.st ≠ .idle)
    (hlines : lines b' = placeLines p b') (htmr : b'.tmr = timerLoad p.phaseTicks) (hdone : b'.done = b.done)
    (hinv : b'.inv = b.inv) : Inv p b' := by
  obtain ⟨-, -, -, hbusy⟩ := (inv_iff p b).1 h
  exact (inv_iff p b').2 ⟨hlines, by simp [htmr], by simp [hdone, hbusy hs], by simp [hdone, hinv, hbusy hs]⟩

theorem Inv.sequencerStep {p : Config.Params} {b : Block p.phaseTicks} (h : Inv p b) : Inv p (sequencerStep p b) := by
  obtain ⟨hl, ht, hx, hbusy⟩ := (inv_iff p b).1 h
  rcases sequencerStep_cases p b with ⟨-, hq⟩ | ⟨hs, h0, hq⟩ | ⟨hs, -, hq⟩ | ⟨hs, -, hq⟩ | ⟨hs, -, hq⟩ |
    ⟨hs, -, -, hq⟩ | ⟨hs, -, -, hq⟩ <;> rw [hq]
  · exact h
  · refine (inv_iff p _).2 ⟨hl, ?_, hx, hbusy⟩
    rw [toNat_timer_sub_one h0]
    omega
  · exact h.of_phase_entered (by simp [hs]) rfl rfl rfl rfl
  · exact h.of_phase_entered (by simp [hs]) rfl rfl rfl rfl
  · exact h.of_phase_entered (by simp [hs]) rfl rfl rfl rfl
  · exact h.of_phase_entered (by simp [hs]) rfl rfl rfl rfl
  · exact (inv_iff p _).2 ⟨rfl, ht, by simp [hbusy (by simp [hs])], by simp⟩

theorem Inv.present {p : Config.Params} {b : Block p.phaseTicks} (h : Inv p b) (e : Option Word) :
    Inv p (present p e b) := by
  by_cases hs : b.st = .idle
  · cases e with
    | none => exact present_invalid p hs ▸ h.raiseInvalidCommand hs
    | some cmd => exact present_valid p cmd hs ▸ inv_beginSend p cmd b
  · exact present_busy p e hs ▸ h.sequencerStep

/-! ### Every step keeps the invariant -/

/-- Settles O43: R133's step is a reset, a request presented or the sequencer's, and each keeps the invariant. -/
theorem ruleStepKeepsInvariant : Obligations.RuleStepKeepsInvariant := by
  intro p rst start req b h
  rw [ruleStep_eq]
  split
  · exact inv_reset p
  · split
    · exact h.present _
    · exact h.sequencerStep

/-- Settles O42: a step that answers a next state is R133's. -/
theorem stepKeepsInvariant : Obligations.StepKeepsInvariant := by
  intro s t h hstep
  obtain ⟨rst, start, req, -, rfl⟩ := exists_ruleStep_of_step_eq_next hstep
  exact ruleStepKeepsInvariant params rst start req s.toBlock h

/-- Settles O44: the reset registers meet each clause of the invariant. -/
theorem resetMeetsInvariant : Obligations.ResetMeetsInvariant := ⟨inv_reset params, inv_reset⟩

end Sys2Proof.Machine
end

section
/-! SUPPORT. The cycle in which a request is presented, the four operations in an idle state (R91 to R94), and what one
step does to INV and CMD (R18, R11). -/

namespace Sys2Proof.Machine

/-! ### The command of an instruction's own word -/

/-- ENCODE of BRIGHT and DIM, whether or not the house index is in range. -/
theorem encodeCommand_reqWord_house (p : Config.Params) {f : FunctionCode} (hf : f.namesUnit = false)
    (house : BitVec 5) : encodeCommand p (reqWord f.field false 0 house) = commandWord p house.toNat none f := by
  by_cases hh : house.toNat < 16
  · simp [encodeCommand, decodeTriple, encodeTriple, hf, hh.not_ge, Nat.mod_eq_of_lt hh]
  · rw [commandWord_house_out p (Nat.not_lt.1 hh)]
    simp [encodeCommand, decodeTriple, Nat.not_lt.1 hh]

/-- The encoder sees in an instruction's word what the instruction names, ill-formed terms included (log 12). -/
theorem encodeCommand_encode (p : Config.Params) (i : Instr) : encodeCommand p (encode i) = instrCommand p i := by
  cases i with
  | switchOn house unit => exact encodeCommand_reqWord_unit p (f := .switchOn) rfl unit house
  | switchOff house unit => exact encodeCommand_reqWord_unit p (f := .switchOff) rfl unit house
  | bright house => exact encodeCommand_reqWord_house p (f := .bright) rfl house
  | dim house => exact encodeCommand_reqWord_house p (f := .dim) rfl house

/-- Settles O9: exec presents the instruction's command, and so does the cycle with its word. -/
theorem execIsItsWordPresented : Obligations.ExecIsItsWordPresented := by
  intro i s
  rw [exec_eq_present_instrCommand, ruleStep_eq, encodeCommand_encode]
  rfl

/-! ### The step -/

theorem step_eq_exec {s : State} {req : Word} {i : Instr} (he : currentEvent s = .cycle false true req)
    (hi : decode req = .ok i) : step s = exec i { s with host := s.host.tail } := by
  rw [step_of_request he, encodeCommand_of_decode_eq_ok params hi]
  exact (exec_eq_present_instrCommand i (consume s)).symm

/-- Settles O7: the word in this cycle of the host's list, put there by the host or by `withFetchWord`. -/
theorem stepRunsDecodedInstruction : Obligations.StepRunsDecodedInstruction := by
  refine ⟨fun s req i => step_eq_exec, fun s w i hi => ?_⟩
  have hw : BitVec.ofNat 16 (w % 2 ^ 16) = BitVec.ofNat 16 w := BitVec.eq_of_toNat_eq (by simp)
  exact step_eq_exec (s := s.withFetchWord 16 w) rfl (by rw [hw, hi])

/-- Settles O15: a cycle of input levels answers R133's next state, so a misuse alone stops the machine. -/
theorem stopsOnlyOnHostMisuse : Obligations.StopsOnlyOnHostMisuse := by
  intro s
  cases he : currentEvent s with
  | misuse m =>
    have hstep : step s = .fault (.hostMisuse m) := by simp only [step, clockEdge, he]
    simp [hstep, eq_comm]
  | cycle rst start req => simp [stepIsRule133 s rst start req he]

/-- Settles O16: with an empty list the current event is the quiet one, and nothing of the list is left to use up. -/
theorem silentHostCycle : Obligations.SilentHostCycle := by
  intro s hs
  have he : currentEvent s = quietEvent := by rw [currentEvent, hs, List.headD_nil]
  rw [stepIsRule133 s false false 0x0000#16 he, hs, List.tail_nil, ← hs]

/-! ### The four operations in an idle state -/

/-- The accept of an instruction with a command: R127's effect on the whole state. -/
theorem exec_of_instrCommand_eq_some {i : Instr} {s : State} {cmd : Word} (hs : s.st = .idle)
    (h : instrCommand params i = some cmd) :
    exec i s =
      .next { s with cmd := cmd, inv := false, done := false, st := .rst0,
                     tmr := BitVec.ofNat _ (params.phaseTicks - 1), rts := false, dtr := false } := by
  rw [exec_eq_present_instrCommand, h, onBlock, present_valid params cmd hs]
  rfl

/-- The accept of an instruction without a command: R143's effect on the whole state. -/
theorem exec_of_instrCommand_eq_none {i : Instr} {s : State} (hs : s.st = .idle) (h : instrCommand params i = none) :
    exec i s = .next { s with inv := true, done := false } := by
  rw [exec_eq_present_instrCommand, h, onBlock, present_invalid params hs]
  rfl

/-- Settles O17: the command of ON; its function pattern is 0. -/
theorem switchOnResult : Obligations.SwitchOnResult := fun house unit s hh hu hs => by
  refine exec_of_instrCommand_eq_some hs ((commandWord_unit params hh hu .switchOn).trans ?_)
  rw [BitVec.or_zero]

/-- Settles O18: the command of OFF. -/
theorem switchOffResult : Obligations.SwitchOffResult := fun _ _ _ hh hu hs =>
  exec_of_instrCommand_eq_some hs (commandWord_unit params hh hu .switchOff)

/-- Settles O19: the command of BRIGHT. -/
theorem brightResult : Obligations.BrightResult := fun _ _ hh hs =>
  exec_of_instrCommand_eq_some hs (commandWord_none params hh .bright)

/-- Settles O20: the command of DIM. -/
theorem dimResult : Obligations.DimResult := fun _ _ hh hs =>
  exec_of_instrCommand_eq_some hs (commandWord_none params hh .dim)

/-- An index outside its ROM leaves the encoder without a word (R33, R90). -/
theorem instrCommand_of_not_wellFormed (p : Config.Params) {i : Instr} (h : i.wellFormed = false) :
    instrCommand p i = none := by
  have hout {index : BitVec 5} (h : indexInRange index = false) : 16 ≤ index.toNat := by
    simpa [indexInRange] using h
  cases i with
  | switchOn house unit =>
    rcases Bool.and_eq_false_iff.1 h with h | h
    · exact commandWord_house_out p (hout h) _ _
    · exact commandWord_unit_out p _ (hout h) _
  | switchOff house unit =>
    rcases Bool.and_eq_false_iff.1 h with h | h
    · exact commandWord_house_out p (hout h) _ _
    · exact commandWord_unit_out p _ (hout h) _
  | bright house => exact commandWord_house_out p (hout h) _ _
  | dim house => exact commandWord_house_out p (hout h) _ _

/-- Settles O21: no command, so the accept step raises InvalidCommand. -/
theorem outOfRangeIndexIsInvalid : Obligations.OutOfRangeIndexIsInvalid := fun _ _ h hs =>
  exec_of_instrCommand_eq_none hs (instrCommand_of_not_wellFormed params h)

/-! ### The registers after a step -/

/-- R133's step by whether it resets, accepts, or leaves the block to the sequencer. -/
theorem ruleStep_cases (p : Config.Params) (rst start : Bool) (req : Word) (b : Block p.phaseTicks) :
    (rst = true ∧ ruleStep p rst start req b = Block.reset p) ∨
    (rst = false ∧ b.st = .idle ∧ start = true ∧ ruleStep p rst start req b = accept (encodeCommand p req) b) ∨
    (rst = false ∧ ¬ (b.st = .idle ∧ start = true) ∧ ruleStep p rst start req b = sequencerStep p b) := by
  rw [ruleStep_eq]
  cases rst with
  | true => exact .inl ⟨rfl, rfl⟩
  | false =>
    by_cases hs : b.st = .idle ∧ start = true
    · obtain ⟨hidle, rfl⟩ := hs
      exact .inr (.inl ⟨rfl, hidle, rfl, by simp [present, (busy_eq_false_iff b).2 hidle]⟩)
    · refine .inr (.inr ⟨rfl, hs, ?_⟩)
      cases start with
      | true => exact present_busy p _ fun hidle => hs ⟨hidle, rfl⟩
      | false => rfl

/-- A well-formed instruction's indices are inside their ROMs, so that every pattern is there (R33, R90). -/
theorem exists_instrCommand_of_wellFormed (p : Config.Params) {i : Instr} (h : i.wellFormed = true) :
    ∃ cmd, instrCommand p i = some cmd := by
  cases i with
  | switchOn house unit =>
    obtain ⟨hh, hu⟩ := (wellFormed_instrOfFields_iff .switchOn house unit).1 h
    exact ⟨_, commandWord_unit p hh (hu rfl) .switchOn⟩
  | switchOff house unit =>
    obtain ⟨hh, hu⟩ := (wellFormed_instrOfFields_iff .switchOff house unit).1 h
    exact ⟨_, commandWord_unit p hh (hu rfl) .switchOff⟩
  | bright house =>
    exact ⟨_, commandWord_none p ((wellFormed_instrOfFields_iff .bright house 0).1 h).1 .bright⟩
  | dim house =>
    exact ⟨_, commandWord_none p ((wellFormed_instrOfFields_iff .dim house 0).1 h).1 .dim⟩

/-- The encoder gives no command for exactly the words the decoder refuses. -/
theorem encodeCommand_eq_none_iff (p : Config.Params) (req : Word) :
    encodeCommand p req = none ↔ ∀ i, decode req ≠ .ok i := by
  refine ⟨fun h i hi => ?_, encodeCommand_of_decode_ne_ok p⟩
  obtain ⟨cmd, hcmd⟩ := exists_instrCommand_of_wellFormed p (encode_of_decode_eq_ok hi).1
  rw [encodeCommand_of_decode_eq_ok p hi, hcmd] at h
  cases h

theorem accept_inv {ticks : Nat} (e : Option Word) (b : Block ticks) : (accept e b).inv = e.isNone := by
  cases e <;> rfl

theorem accept_cmd {ticks : Nat} (e : Option Word) (b : Block ticks) : (accept e b).cmd = e.getD b.cmd := by
  cases e <;> rfl

/-- Settles O47: INV is read off the operation the step takes, and the sentence derived in R18 off the invariant. -/
theorem invChangesOnlyAsStated : Obligations.InvChangesOnlyAsStated := by
  intro s t rst start req he h
  refine ⟨?_, fun hinv => ?_⟩
  · cases h.symm.trans (stepIsRule133 s rst start req he)
    rcases ruleStep_cases params rst start req s.toBlock with ⟨rfl, hq⟩ | ⟨rfl, hs, rfl, hq⟩ | ⟨rfl, hs, hq⟩
    · simp [hq]
    · simp [hq, hs, accept_inv, encodeCommand_eq_none_iff]
    · have hno : ¬ (s.st = .idle ∧ start = true ∧ ∀ i, decode req ≠ .ok i) := 
        fun ⟨hidle, hstart, _⟩ => hs ⟨hidle, hstart⟩
      simp only [hq, sequencerStep_inv, hno, hs, not_false_eq_true, and_true, false_or, true_and]
  · have ht := stepKeepsInvariant s t hinv h
    exact ⟨ht.flagsExclusive, fun hi => ht.flagsIdle (.inr hi)⟩

/-- Settles O48: CMD is read off the operation the step takes. -/
theorem cmdChangesOnlyAsStated : Obligations.CmdChangesOnlyAsStated := by
  intro s t rst start req he h
  cases h.symm.trans (stepIsRule133 s rst start req he)
  rcases ruleStep_cases params rst start req s.toBlock with ⟨rfl, hq⟩ | ⟨rfl, hs, rfl, hq⟩ | ⟨rfl, hs, hq⟩
  · simp [hq]
  · simp only [hq, hs, accept_cmd]
    cases encodeCommand params req <;> simp
  · refine ⟨by simp, fun e _ hidle hstart _ => absurd ⟨hidle, hstart⟩ hs, fun _ _ => ?_⟩
    simp [hq]

/-! ### The status word and the pins -/

/-- The bits of STATUS (R19). -/
theorem getLsbD_status {ticks : Nat} (b : Block ticks) :
    (status b).getLsbD 0 = busy b ∧ (status b).getLsbD 1 = b.done ∧ (status b).getLsbD 2 = b.inv := by
  unfold status
  generalize busy b = x, b.done = y, b.inv = z
  revert x y z
  decide

/-- Settles O49: the bits of STATUS, and the pins by their definition. -/
theorem statusAndPins : Obligations.StatusAndPins := fun _ b => by
  obtain ⟨hbusy, hdone, hinv⟩ := getLsbD_status b
  exact ⟨hbusy, hdone, hinv, busy_eq_true_iff b, rfl, rfl, rfl, rfl, rfl⟩

end Sys2Proof.Machine
end

section
/-! SUPPORT. The tables this hardware takes (R66 to R68): which bits a pattern uses, what a command tells of its request
(R97, R99), and the figures that follow from the phase counts (R168). -/

namespace Sys2Proof.Machine

/-! ### Patterns that share no bit -/

theorem and_eq_zero_of_mask {x m n : Word} (hx : x &&& m = x) (hmn : m &&& n = 0#16) : x &&& n = 0#16 := by
  rw [← hx, BitVec.and_assoc, hmn, BitVec.and_zero]

theorem and_eq_zero_of_masks {x y m n : Word} (hx : x &&& m = x) (hy : y &&& n = y) (hmn : m &&& n = 0#16) :
    x &&& y = 0#16 := by
  rw [← hy, BitVec.and_comm y, ← BitVec.and_assoc, and_eq_zero_of_mask hx hmn, BitVec.zero_and]

theorem toNat_or_of_and_eq_zero {x y : Word} (h : x &&& y = 0#16) : (x ||| y).toNat = x.toNat + y.toNat := by
  rw [← BitVec.add_eq_or_of_and_eq_zero x y h, BitVec.toNat_add_of_and_eq_zero h]

/-- Each house pattern lies in the four top bits. -/
theorem houseRomDefault_and : ∀ i : Fin 16, houseRomDefault[i] &&& 0xF000#16 = houseRomDefault[i] := by decide

/-- Each unit pattern lies in four bits of its own. -/
theorem unitRomDefault_and : ∀ i : Fin 16, unitRomDefault[i] &&& 0x0458#16 = unitRomDefault[i] := by decide

/-- The patterns of ON and OFF: the command is their sum, and a mask reads each of them back. -/
theorem unit_command_masks (house unit : Fin 16) {f : Word} (hf : f &&& 0x0020#16 = f) :
    (houseRomDefault[house] ||| unitRomDefault[unit] ||| f).toNat =
        houseRomDefault[house].toNat + unitRomDefault[unit].toNat + f.toNat ∧
      (houseRomDefault[house] ||| unitRomDefault[unit] ||| f) &&& 0xF000#16 = houseRomDefault[house] ∧
      (houseRomDefault[house] ||| unitRomDefault[unit] ||| f) &&& 0x0458#16 = unitRomDefault[unit] ∧
      (houseRomDefault[house] ||| unitRomDefault[unit] ||| f) &&& 0x0020#16 = f := by
  have hh := houseRomDefault_and house
  have hu := unitRomDefault_and unit
  have huf : (houseRomDefault[house] ||| unitRomDefault[unit]) &&& f = 0#16 := by
    rw [BitVec.and_or_distrib_right, and_eq_zero_of_masks hh hf (by decide), and_eq_zero_of_masks hu hf (by decide),
      BitVec.or_zero]
  rw [toNat_or_of_and_eq_zero huf, toNat_or_of_and_eq_zero (and_eq_zero_of_masks hh hu (by decide))]
  simp only [BitVec.and_or_distrib_right, hh, hu, hf, and_eq_zero_of_mask hh (n := 0x0458#16) (by decide),
    and_eq_zero_of_mask hh (n := 0x0020#16) (by decide), and_eq_zero_of_mask hu (n := 0xF000#16) (by decide),
    and_eq_zero_of_mask hu (n := 0x0020#16) (by decide), and_eq_zero_of_mask hf (n := 0xF000#16) (by decide),
    and_eq_zero_of_mask hf (n := 0x0458#16) (by decide), BitVec.or_zero, BitVec.zero_or, and_self]

/-- The patterns of BRIGHT and DIM: the command is their sum, and a mask reads each of them back. -/
theorem house_command_masks (house : Fin 16) {f : Word} (hf : f &&& 0x00B8#16 = f) :
    (houseRomDefault[house] ||| f).toNat = houseRomDefault[house].toNat + f.toNat ∧
      (houseRomDefault[house] ||| f) &&& 0xF000#16 = houseRomDefault[house] ∧
      (houseRomDefault[house] ||| f) &&& 0x00B8#16 = f := by
  have hh := houseRomDefault_and house
  rw [toNat_or_of_and_eq_zero (and_eq_zero_of_masks hh hf (by decide))]
  simp only [BitVec.and_or_distrib_right, hh, hf, and_eq_zero_of_mask hh (n := 0x00B8#16) (by decide),
    and_eq_zero_of_mask hf (n := 0xF000#16) (by decide), BitVec.or_zero, BitVec.zero_or, and_self]

theorem toNat_ofNat_index (i : Fin 16) : (BitVec.ofNat 5 i.val).toNat = i.val := by
  rw [BitVec.toNat_ofNat, Nat.mod_eq_of_lt (by omega)]

theorem encodeCommand_unit_index {f : FunctionCode} (hf : f.namesUnit = true) (house unit : Fin 16) :
    encodeCommand params (reqWord f.field true (BitVec.ofNat 5 unit.val) (BitVec.ofNat 5 house.val)) =
      commandWord params house.val (some unit.val) f := by
  rw [encodeCommand_reqWord_unit params hf, toNat_ofNat_index, toNat_ofNat_index]

theorem encodeCommand_house_index {f : FunctionCode} (hf : f.namesUnit = false) (house : Fin 16) :
    encodeCommand params (reqWord f.field false 0 (BitVec.ofNat 5 house.val)) =
      commandWord params house.val none f := by
  rw [encodeCommand_reqWord_house params hf, toNat_ofNat_index]

/-- Settles O25: the command of each function as the OR of its patterns, which lie inside disjoint masks. -/
theorem patternsShareNoBit : Obligations.PatternsShareNoBit := by
  intro house unit
  refine ⟨Fin.forall_fin_two.2 ⟨?on, ?off⟩, Fin.forall_fin_two.2 ⟨?bright, ?dim⟩⟩
  case on =>
    exact ⟨_, (encodeCommand_unit_index (f := .switchOn) rfl house unit).trans
      (commandWord_unit params house.isLt unit.isLt .switchOn), unit_command_masks house unit (by decide)⟩
  case off =>
    exact ⟨_, (encodeCommand_unit_index (f := .switchOff) rfl house unit).trans
      (commandWord_unit params house.isLt unit.isLt .switchOff), unit_command_masks house unit (by decide)⟩
  case bright =>
    exact ⟨_, (encodeCommand_house_index (f := .bright) rfl house).trans
      (commandWord_none params house.isLt .bright), house_command_masks house (by decide)⟩
  case dim =>
    exact ⟨_, (encodeCommand_house_index (f := .dim) rfl house).trans
      (commandWord_none params house.isLt .dim), house_command_masks house (by decide)⟩

/-! ### What a command tells of its request -/

/-- The unit and function patterns of a request (R90); 0 for an index outside its ROM. -/
def operationPattern (p : Config.Params) (f : FunctionCode) (unit : BitVec 5) : Word :=
  (unitOperand p (if f.namesUnit then some unit.toNat else none)).getD 0 ||| (functionOperand p f).getD 0

theorem instrCommand_instrOfFields (p : Config.Params) {f : FunctionCode} {house unit : BitVec 5}
    (hh : house.toNat < 16) (hu : f.namesUnit = true → unit.toNat < 16) :
    instrCommand p (instrOfFields f house unit) = some (p.houseRom[house.toNat] ||| operationPattern p f unit) := by
  cases f with
  | switchOn =>
    refine (commandWord_unit p hh (hu rfl) .switchOn).trans ?_
    simp [operationPattern, unitOperand, memRead_unit p (hu rfl), functionOperand_eq, FunctionCode.namesUnit]
  | switchOff =>
    refine (commandWord_unit p hh (hu rfl) .switchOff).trans ?_
    simp [operationPattern, unitOperand, memRead_unit p (hu rfl), functionOperand_eq, FunctionCode.namesUnit,
      BitVec.or_assoc]
  | bright =>
    refine (commandWord_none p hh .bright).trans ?_
    simp [operationPattern, unitOperand, functionOperand_eq, FunctionCode.namesUnit]
  | dim =>
    refine (commandWord_none p hh .dim).trans ?_
    simp [operationPattern, unitOperand, functionOperand_eq, FunctionCode.namesUnit]

/-- The function that a command's bits name: bit 7 is 1 in BRIGHT and DIM alone, bit 4 tells those two apart, and bit 5
tells OFF from ON. -/
def functionOfCommand (w : Word) : FunctionCode :=
  if w.getLsbD 7 then (if w.getLsbD 4 then .dim else .bright)
  else if w.getLsbD 5 then .switchOff else .switchOn

theorem functionOfCommand_operationPattern (f : FunctionCode) :
    ∀ unit, functionOfCommand (operationPattern params f unit) = f := by
  cases f <;> decide

theorem operationPattern_and_house (f : FunctionCode) :
    ∀ unit, operationPattern params f unit &&& 0x0FFF#16 = operationPattern params f unit := by
  cases f <;> decide

/-- Behind ON and OFF the unit pattern is read back, and units 9 and 12 alone share one (R70). -/
theorem unit_eq_or_of_operationPattern_eq {f : FunctionCode} (hf : f.namesUnit = true) :
    ∀ u v : BitVec 5, u.toNat < 16 → v.toNat < 16 → operationPattern params f u = operationPattern params f v →
      u = v ∨ (u = 8 ∧ v = 11) ∨ (u = 11 ∧ v = 8) := by
  cases f with
  | switchOn => decide
  | switchOff => decide
  | bright => cases hf
  | dim => cases hf

theorem houseRomDefault_injective : ∀ i j : Fin 16, houseRomDefault[i] = houseRomDefault[j] → i = j := by decide

/-- The command as the OR of its house pattern and the rest, and each part read back. -/
theorem operands_of_command_eq {f g : FunctionCode} {house house' unit unit' : BitVec 5} (hh : house.toNat < 16)
    (hh' : house'.toNat < 16)
    (h : houseRomDefault[house.toNat] ||| operationPattern params f unit =
      houseRomDefault[house'.toNat] ||| operationPattern params g unit') :
    house = house' ∧ operationPattern params f unit = operationPattern params g unit' := by
  have hhouse (i : Fin 16) (k : FunctionCode) (u : BitVec 5) :
      (houseRomDefault[i] ||| operationPattern params k u) &&& 0xF000#16 = houseRomDefault[i] := by
    rw [BitVec.and_or_distrib_right, houseRomDefault_and,
      and_eq_zero_of_mask (operationPattern_and_house k u) (by decide), BitVec.or_zero]
  have hrest (i : Fin 16) (k : FunctionCode) (u : BitVec 5) :
      (houseRomDefault[i] ||| operationPattern params k u) &&& 0x0FFF#16 = operationPattern params k u := by
    rw [BitVec.and_or_distrib_right, operationPattern_and_house,
      and_eq_zero_of_mask (houseRomDefault_and i) (by decide), BitVec.zero_or]
  have hpat := congrArg (· &&& 0xF000#16) h
  have hop := congrArg (· &&& 0x0FFF#16) h
  constructor
  · have hrom := (hhouse ⟨_, hh⟩ f unit).symm.trans (hpat.trans (hhouse ⟨_, hh'⟩ g unit'))
    exact BitVec.eq_of_toNat_eq (Fin.mk.inj (houseRomDefault_injective ⟨_, hh⟩ ⟨_, hh'⟩ hrom))
  · exact (hrest ⟨_, hh⟩ f unit).symm.trans (hop.trans (hrest ⟨_, hh'⟩ g unit'))

/-- Two well-formed requests with one command have one house, one function and, up to units 9 and 12, one unit. -/
theorem fields_of_instrCommand_eq {f g : FunctionCode} {house house' unit unit' : BitVec 5}
    (hi : (instrOfFields f house unit).wellFormed = true) (hj : (instrOfFields g house' unit').wellFormed = true)
    (h : instrCommand params (instrOfFields f house unit) = instrCommand params (instrOfFields g house' unit')) :
    f = g ∧ house = house' ∧
      (f.namesUnit = true → unit = unit' ∨ (unit = 8 ∧ unit' = 11) ∨ (unit = 11 ∧ unit' = 8)) := by
  obtain ⟨hh, hu⟩ := (wellFormed_instrOfFields_iff f house unit).1 hi
  obtain ⟨hh', hu'⟩ := (wellFormed_instrOfFields_iff g house' unit').1 hj
  rw [instrCommand_instrOfFields params hh hu, instrCommand_instrOfFields params hh' hu'] at h
  obtain ⟨rfl, hop⟩ := operands_of_command_eq hh hh' (Option.some.inj h)
  have hfg : f = g := by
    rw [← functionOfCommand_operationPattern f unit, hop, functionOfCommand_operationPattern]
  subst hfg
  exact ⟨rfl, rfl, fun hf => unit_eq_or_of_operationPattern_eq hf _ _ (hu hf) (hu' hf) hop⟩

/-- With house A a unit of pattern 0x0400 gives 0x6400 behind ON and 0x6420 behind OFF, under every admissible table. -/
theorem encodeCommand_houseA {p : Config.Params} (hp : Config.Admissible p) {unit : BitVec 5}
    (hu : memRead p .unit unit.toNat = some 0x0400#16) :
    encodeCommand p (encode (.switchOn 0 unit)) = some 0x6400#16 ∧
      encodeCommand p (encode (.switchOff 0 unit)) = some 0x6420#16 := by
  have hA : memRead p .house 0 = some 0x6000#16 := (memRead_house p (by decide)).trans (congrArg some hp.houseA)
  simp [encodeCommand_encode, instrCommand, commandWord, houseOperand, unitOperand, functionOperand_eq, hA, hu]

/-- Settles O24: the printed entries, and then the fields read back from a command of the supplied tables. -/
theorem onlyUnitsNineAndTwelveCollide : Obligations.OnlyUnitsNineAndTwelveCollide := by
  refine ⟨fun p hp => ?_, fun i j hi hj h => ?_⟩
  · obtain ⟨hon9, hoff9⟩ := encodeCommand_houseA hp (unit := 8) (memRead_unit9 hp)
    obtain ⟨hon12, hoff12⟩ := encodeCommand_houseA hp (unit := 11) (memRead_unit12 hp)
    exact ⟨hon9, hon12, hoff9, hoff12⟩
  · rw [encodeCommand_encode, encodeCommand_encode] at h
    obtain ⟨f, house, unit, rfl⟩ := i.exists_eq_instrOfFields
    obtain ⟨g, house', unit', rfl⟩ := j.exists_eq_instrOfFields
    obtain ⟨rfl, rfl, hunit⟩ := fields_of_instrCommand_eq hi hj h
    cases f with
    | switchOn => rcases hunit rfl with rfl | ⟨rfl, rfl⟩ | ⟨rfl, rfl⟩ <;> simp [instrOfFields]
    | switchOff => rcases hunit rfl with rfl | ⟨rfl, rfl⟩ | ⟨rfl, rfl⟩ <;> simp [instrOfFields]
    | bright => exact .inl rfl
    | dim => exact .inl rfl

/-! ### The contents of the tables -/

/-- Settles O27: each table entry by entry. -/
theorem romContents : Obligations.RomContents := ⟨rfl, rfl, rfl⟩

/-- Settles O28: each equation of R69 is an entry of the tables; house C is below house A, house B above it. -/
theorem defaultTablesAreAdmissible : Obligations.DefaultTablesAreAdmissible where
  ticks := by decide
  houseA := rfl
  houseC := rfl
  houseP := rfl
  unit1 := rfl
  unit9 := rfl
  unit12 := rfl
  unit16 := rfl
  notMonotonic := ⟨⟨0, 2, by decide, by decide⟩, ⟨0, 1, by decide, by decide⟩⟩
  idle := .inl rfl

/-! ### Timing figures -/

@[simp] theorem length_sendTrace (p : Config.Params) (cmd : Word) : (sendTrace p cmd).length = 82 * p.phaseTicks := by
  simp only [sendTrace, List.length_flatMap, List.length_replicate, List.map_const', List.sum_replicate,
    sendPhases_length, smul_eq_mul]

theorem phaseTicks_mul_clockPeriodMs {p : Config.Params} (h : 1 ≤ p.phaseTicks) :
    (p.phaseTicks : Rat) * Config.clockPeriodMs p = 35 := by
  have : (p.phaseTicks : Rat) ≠ 0 := by positivity
  rw [Config.clockPeriodMs, mul_div_cancel₀ _ this]
  rfl

theorem phaseInTolerance_iff (p : Config.Params) (ms : Rat) :
    Config.phaseInTolerance p ms ↔ |ms - 35| ≤ p.toleranceMs := by
  have h35 : (Config.holdMs : Rat) = 35 := rfl
  rw [Config.phaseInTolerance, h35, abs_le]
  constructor <;> rintro ⟨h, h'⟩ <;> constructor <;> linarith

/-- Settles O50: the lengths of the phase lists times PHASE_TICKS, and D within D_TOL. -/
theorem timingFigures : Obligations.TimingFigures := by
  refine ⟨rfl, fun cmd => ?_, ?_, ?_, fun cmd => ?_, fun p => phaseTicks_mul_clockPeriodMs, phaseInTolerance_iff,
    fun ms => ?_⟩
  · rw [length_sendTrace]
    rfl
  · rw [transmit_length]
    rfl
  · rw [transmit_length]
    rfl
  · rw [transmit_length]
    rfl
  · have h35 : (Config.holdMs : Rat) = 35 := rfl
    have h1 : params.toleranceMs = 1 := rfl
    rw [Config.phaseInTolerance, h35, h1]
    norm_num

end Sys2Proof.Machine
end

section
/-! SUPPORT. The phase lists of a field and of a send, phase by phase (R116, R120, R126), and the lines of a state as
those of its phase (R26, R28). -/

namespace Sys2Proof.Machine

/-! ### The phases of a field -/

/-- Phase `2j` is the mark of bit `n - 1 - j`, phase `2j + 1` the rest (R116). -/
theorem transmitBelow_getElem? {w : Nat} (v : BitVec w) (n j : Nat) (hj : j < n) :
    (transmitBelow v n)[2 * j]? = some (markLines (v.getLsbD (n - 1 - j))) ∧
      (transmitBelow v n)[2 * j + 1]? = some restLines := by
  induction n generalizing j with
  | zero => omega
  | succ n ih =>
    cases j with
    | zero => exact ⟨rfl, rfl⟩
    | succ j =>
      have hbit : n + 1 - 1 - (j + 1) = n - 1 - j := by omega
      rw [hbit]
      exact ih j (by omega)

/-- The bits above those of `b` are sent first. -/
theorem transmitBelow_append {w w' : Nat} (a : BitVec w) (b : BitVec w') (n : Nat) :
    transmitBelow (a ++ b) (n + w') = transmitBelow a n ++ transmitBelow b w' := by
  induction n with
  | zero =>
    rw [Nat.zero_add]
    exact transmitBelow_congr (a ++ b) b w' fun k hk => by simp [BitVec.getLsbD_append, hk]
  | succ n ih =>
    have hbit : (a ++ b).getLsbD (n + w') = a.getLsbD n := by simp [BitVec.getLsbD_append]
    rw [Nat.add_right_comm]
    simp only [transmitBelow, hbit, ih, List.append_assoc]

theorem transmit_append {w w' : Nat} (a : BitVec w) (b : BitVec w') :
    transmit (a ++ b) = transmit a ++ transmit b := transmitBelow_append a b w

/-- The frame's three bursts (R105, R116). -/
theorem transmit_frame (cmd : Word) : transmit (frame cmd) = transmit header ++ transmit cmd ++ transmit footer := by
  rw [← transmit_append, ← transmit_append]
  rfl

/-- Settles O30: the two phases of each bit, by induction on the field's width. -/
theorem transmitIsBitByBit : Obligations.TransmitIsBitByBit :=
  ⟨fun w v => ⟨transmit_length v, fun k hk => transmitBelow_getElem? v w k hk⟩, fun _ _ => transmit_append,
    transmit_frame⟩

/-! ### One line changes per phase -/

/-- A phase of a field is the mark of a bit at an even place and the rest at an odd one. -/
theorem exists_of_transmit_getElem? {w : Nat} {v : BitVec w} {k : Nat} {l : Lines} (h : (transmit v)[k]? = some l) :
    (k % 2 = 0 ∧ ∃ bit, l = markLines bit) ∨ (k % 2 = 1 ∧ l = restLines) := by
  obtain ⟨hk, -⟩ := List.getElem?_eq_some_iff.1 h
  rw [transmit_length] at hk
  obtain ⟨hmark, hrest⟩ := transmitBelow_getElem? v w (k / 2) (by omega)
  rcases Nat.mod_two_eq_zero_or_one k with hmod | hmod
  · rw [show 2 * (k / 2) = k by omega] at hmark
    exact .inl ⟨hmod, _, Option.some.inj (h.symm.trans hmark)⟩
  · rw [show 2 * (k / 2) + 1 = k by omega] at hrest
    exact .inr ⟨hmod, Option.some.inj (h.symm.trans hrest)⟩

/-- Settles O31: a mark asserts one line, a rest both, and they alternate. -/
theorem oneLineChangesPerPhase : Obligations.OneLineChangesPerPhase := by
  refine fun w v => ⟨fun k a b ha hb => ?_, fun l hl => ?_⟩
  · rcases exists_of_transmit_getElem? ha with ⟨hk, bit, rfl⟩ | ⟨hk, rfl⟩ <;>
      rcases exists_of_transmit_getElem? hb with ⟨hk', bit', rfl⟩ | ⟨hk', rfl⟩
    · omega
    · cases bit <;> decide
    · cases bit' <;> decide
    · omega
  · obtain ⟨k, hk⟩ := List.mem_iff_getElem?.1 hl
    rcases exists_of_transmit_getElem? hk with ⟨-, bit, rfl⟩ | ⟨-, rfl⟩
    · cases bit <;> decide
    · exact .inl rfl

/-! ### The phases of a send -/

/-- Phases `2 + 2j` and `3 + 2j` are those of frame bit `39 - j` (R126). -/
theorem sendPhases_getElem? (cmd : Word) (j : Nat) (hj : j < 40) :
    (sendPhases cmd)[2 + 2 * j]? = some (markLines ((frame cmd).getLsbD (39 - j))) ∧
      (sendPhases cmd)[3 + 2 * j]? = some restLines := by
  obtain ⟨hmark, hrest⟩ := transmitBelow_getElem? (frame cmd) 40 j hj
  rw [Nat.add_comm 2, Nat.add_comm 3]
  exact ⟨hmark, hrest⟩

/-- The constant bursts of the header and the footer stand around the command's (R126). -/
theorem sendPhases_eq (cmd : Word) :
    sendPhases cmd = ([linesOff, restLines] ++ transmit header) ++ transmit cmd ++ transmit footer := by
  rw [sendPhases, transmit_frame]
  simp only [List.append_assoc]

theorem take_sendPhases (cmd : Word) : (sendPhases cmd).take 34 = [linesOff, restLines] ++ transmit header := by
  rw [sendPhases_eq, List.append_assoc]
  exact List.take_left' (by rw [List.length_append, transmit_length]; rfl)

theorem drop_sendPhases (cmd : Word) : (sendPhases cmd).drop 66 = transmit footer := by
  rw [sendPhases_eq]
  exact List.drop_left' (by rw [List.length_append, List.length_append, transmit_length, transmit_length]; rfl)

/-- Settles O32: the preamble, the bits of the frame, and the two bursts that no command enters. -/
theorem sendPhaseList : Obligations.SendPhaseList := fun cmd =>
  ⟨sendPhases_length cmd, rfl, rfl, fun k hk => sendPhases_getElem? cmd k hk, fun cmd' =>
    ⟨(take_sendPhases cmd).trans (take_sendPhases cmd').symm, (drop_sendPhases cmd).trans (drop_sendPhases cmd').symm⟩⟩

/-! ### The lines of a place -/

/-- The lines of a state's place in a send are those of its phase. -/
theorem sendPhases_phaseIndex {p : Config.Params} {b : Block p.phaseTicks} {k : Nat} (h : phaseIndex b = some k) :
    (sendPhases b.cmd)[k]? = some (placeLines p b) := by
  have hb : 39 - (39 - b.bcnt.val) = b.bcnt.val := by omega
  obtain ⟨hmark, hrest⟩ := sendPhases_getElem? b.cmd (39 - b.bcnt.val) (by omega)
  cases hs : b.st <;> simp only [phaseIndex, hs] at h <;> cases h <;> simp only [placeLines, hs]
  case rst0 => rfl
  case rst1 => rfl
  case mark => rw [hmark, hb, currentBit]
  case rest => exact hrest

/-- Settles O45: the invariant gives the lines of the state's place. -/
theorem linesAreThePhase : Obligations.LinesAreThePhase := by
  intro p b k h hk
  obtain ⟨hlines, -⟩ := (inv_iff p b).1 h
  rw [hlines, sendPhases_phaseIndex hk]

end Sys2Proof.Machine
end

section
/-! SUPPORT. The phase index and the timer over a step (R15, R28, R138), the run to the end of a send (R135), and the
machine's run against that of R133's step. -/

namespace Sys2Proof.Machine

/-! ### The phase index and the timer -/

theorem busy_of_phaseIndex {ticks : Nat} {b : Block ticks} {k : Nat} (h : phaseIndex b = some k) : b.st ≠ .idle := by
  intro hs
  simp [phaseIndex, hs] at h

theorem phaseIndex_le {ticks : Nat} {b : Block ticks} {k : Nat} (h : phaseIndex b = some k) : k ≤ 81 := by
  cases hs : b.st <;> simp only [phaseIndex, hs, reduceCtorEq, Option.some.injEq] at h <;> omega

theorem phaseIndex_eq_last_iff {ticks : Nat} (b : Block ticks) :
    phaseIndex b = some 81 ↔ b.st = .rest ∧ b.bcnt = 0 := by
  have h0 : b.bcnt = 0 ↔ b.bcnt.val = 0 := Fin.ext_iff
  cases hs : b.st with
  | idle => simp [phaseIndex, hs]
  | rst0 => simp [phaseIndex, hs]
  | rst1 => simp [phaseIndex, hs]
  | mark => simp only [phaseIndex, hs, Option.some.injEq, reduceCtorEq, false_and, iff_false]; omega
  | rest => simp only [phaseIndex, hs, Option.some.injEq, true_and, h0]; omega

/-- At the end of a phase but the last, the next one begins with the timer loaded (R28). -/
theorem sequencerStep_next_phase {p : Config.Params} {b : Block p.phaseTicks} {k : Nat} (h : phaseIndex b = some k)
    (ht : b.tmr = 0) (hk : k < 81) :
    phaseIndex (sequencerStep p b) = some (k + 1) ∧ (sequencerStep p b).tmr = timerLoad p.phaseTicks := by
  rcases sequencerStep_cases p b with ⟨hs, -⟩ | ⟨-, ht', -⟩ | ⟨hs, -, hq⟩ | ⟨hs, -, hq⟩ | ⟨hs, -, hq⟩ |
    ⟨hs, -, hb, hq⟩ | ⟨hs, -, hb, -⟩
  · exact absurd hs (busy_of_phaseIndex h)
  · exact absurd ht ht'
  all_goals simp only [phaseIndex, hs, Option.some.injEq] at h
  · rw [hq, ← h]
    exact ⟨rfl, rfl⟩
  · rw [hq, ← h]
    exact ⟨rfl, rfl⟩
  · refine ⟨?_, by rw [hq, enterPhase_tmr]⟩
    simp only [hq, phaseIndex, enterPhase_st, enterPhase_bcnt, Option.some.injEq]
    omega
  · refine ⟨?_, by rw [hq, enterMark_tmr]⟩
    have hpos : b.bcnt.val ≠ 0 := Fin.val_ne_iff.2 hb
    simp only [hq, phaseIndex, enterMark_st, enterMark_bcnt, bcntPred_val, Option.some.injEq]
    omega
  · rw [hb] at h
    simp at h
    omega

/-- A running timer counts down in its phase. -/
theorem sequencerStep_same_phase {p : Config.Params} {b : Block p.phaseTicks} (hs : b.st ≠ .idle) (ht : b.tmr ≠ 0) :
    phaseIndex (sequencerStep p b) = phaseIndex b ∧ (sequencerStep p b).tmr.toNat = b.tmr.toNat - 1 := by
  rw [sequencerStep_hold p hs ht]
  exact ⟨rfl, toNat_timer_sub_one ht⟩

/-- The end of the last phase is the end of the send. -/
theorem sequencerStep_last_phase {p : Config.Params} {b : Block p.phaseTicks} (h : phaseIndex b = some 81)
    (ht : b.tmr = 0) : sequencerStep p b = release p b := by
  obtain ⟨hs, hb⟩ := (phaseIndex_eq_last_iff b).1 h
  exact sequencerStep_last p hs ht hb

/-- Settles O40: while busy a step is the sequencer's, within a phase, from one to the next, or out of the last. -/
theorem phaseIndexAdvances : Obligations.PhaseIndexAdvances := by
  intro p b start req k h
  have hs := busy_of_phaseIndex h
  rw [ruleStep_quiet p b start req (.inl hs)]
  refine ⟨phaseIndex_le h, fun ht => ?stays, fun ht hk => ?advances, fun ht hk => ?ends⟩
  case stays =>
    obtain ⟨hphase, htmr⟩ := sequencerStep_same_phase hs ht
    exact ⟨hphase.trans h, htmr⟩
  case advances =>
    obtain ⟨hphase, htmr⟩ := sequencerStep_next_phase h ht hk
    exact ⟨hphase, by rw [htmr, timerLoad_toNat]⟩
  case ends =>
    subst hk
    rw [sequencerStep_last_phase h ht]
    rfl

/-- The timer's width is the least one that `PHASE_TICKS` fits (R15). -/
theorem ceilLog2Within_le_iff (fuel n w : Nat) (h : n ≤ fuel) : ceilLog2Within fuel n ≤ w ↔ n ≤ 2 ^ w := by
  induction fuel generalizing n w with
  | zero => simp [ceilLog2Within, Nat.le_zero.1 h]
  | succ fuel ih =>
    unfold ceilLog2Within
    split
    next hn => simpa using hn.trans Nat.one_le_two_pow
    next hn =>
      cases w with
      | zero => simpa using hn
      | succ w =>
        rw [Nat.succ_le_succ_iff, ih _ w (by omega), Nat.pow_succ]
        omega

/-- Settles O41: the width by halving, and the timer under each operation of a step. -/
theorem phaseTimer : Obligations.PhaseTimer := by
  refine ⟨fun n w _ => ceilLog2Within_le_iff n n w (Nat.le_refl n), by decide, by decide, fun p b start req => ?_⟩
  have hbusy (hs : b.st ≠ .idle) := ruleStep_quiet p b start req (.inl hs)
  refine ⟨rfl, fun hs hno => ?left, fun hs hstart henc => ?accept, fun hs ht => ?runs, fun k h ht hk => ?boundary,
    fun h ht => ?last⟩
  case left =>
    rcases ruleStep_cases p false start req b with ⟨h, -⟩ | ⟨-, -, hstart, hq⟩ | ⟨-, -, hq⟩
    · cases h
    · rw [hq, hno.resolve_left (by simp [hstart])]
      rfl
    · rw [hq, sequencerStep_idle p hs]
  case accept =>
    obtain ⟨cmd, hcmd⟩ := Option.ne_none_iff_exists'.1 henc
    subst hstart
    rw [ruleStep_accept p hs hcmd, beginSend_tmr, timerLoad_toNat]
  case runs => rw [hbusy hs, (sequencerStep_same_phase hs ht).2]
  case boundary => rw [hbusy (busy_of_phaseIndex h), (sequencerStep_next_phase h ht hk).2, timerLoad_toNat]
  case last => rw [hbusy (busy_of_phaseIndex h), sequencerStep_last_phase h ht, release_tmr, ht]

/-! ### The run to the end of a send -/

/-- The block at the end of the send in progress (R131, R136). -/
def sentBlock (p : Config.Params) (b : Block p.phaseTicks) : Block p.phaseTicks :=
  { b with st := .idle, bcnt := 0, tmr := 0, rts := p.idleLines.rts, dtr := p.idleLines.dtr, done := true }

/-- CMD and INV alone are kept to the end, and no timed step changes them. -/
theorem sentBlock_sequencerStep (p : Config.Params) (b : Block p.phaseTicks) :
    sentBlock p (sequencerStep p b) = sentBlock p b := by
  simp [sentBlock]

theorem busy_of_lt_cyclesLeft {p : Config.Params} {b : Block p.phaseTicks} {n : Nat} (h : n < cyclesLeft p b) :
    b.st ≠ .idle := fun hs => by simp [cyclesLeft_idle p hs] at h

theorem cyclesLeft_eq_succ {p : Config.Params} {b : Block p.phaseTicks} (hN : 1 ≤ p.phaseTicks) (hs : b.st ≠ .idle) :
    cyclesLeft p b = cyclesLeft p (sequencerStep p b) + 1 := by
  simpa using congrArg List.length (linesLeft_eq_cons hN hs)

/-- The timed step that makes a busy block idle is the last of its send. -/
theorem sequencerStep_eq_sentBlock {p : Config.Params} {b : Block p.phaseTicks} (hs : b.st ≠ .idle)
    (hs' : (sequencerStep p b).st = .idle) : sequencerStep p b = sentBlock p b := by
  rcases sequencerStep_cases p b with ⟨h, -⟩ | ⟨-, -, hq⟩ | ⟨-, -, hq⟩ | ⟨-, -, hq⟩ | ⟨-, -, hq⟩ |
    ⟨-, -, -, hq⟩ | ⟨-, ht, hb, hq⟩
  · exact absurd h hs
  · exact absurd (by simpa [hq] using hs') hs
  · simp [hq] at hs'
  · simp [hq] at hs'
  · simp [hq] at hs'
  · simp [hq] at hs'
  · rw [hq]
    exact Block.eq_of_fields rfl hb ht rfl rfl rfl rfl rfl

/-- Whatever the host drives meanwhile, the cycles left take a busy block to the end of its send (R132, R135). -/
theorem runRule_cyclesLeft {p : Config.Params} (hN : 1 ≤ p.phaseTicks) {b : Block p.phaseTicks} (hs : b.st ≠ .idle)
    {inputs : List Inputs} (h : inputs.length = cyclesLeft p b) : runRule p b inputs = sentBlock p b := by
  induction inputs generalizing b with
  | nil => simp [cyclesLeft_busy p hs] at h
  | cons i rest ih =>
    have hrest : rest.length = cyclesLeft p (sequencerStep p b) :=
      Nat.succ.inj (h.trans (cyclesLeft_eq_succ hN hs))
    rw [runRule_cons, ruleStep_quiet p b _ _ (.inl hs)]
    by_cases hs' : (sequencerStep p b).st = .idle
    · rw [cyclesLeft_idle p hs', List.length_eq_zero_iff] at hrest
      rw [hrest, runRule_nil, sequencerStep_eq_sentBlock hs hs']
    · rw [ih hs' hrest, sentBlock_sequencerStep]

/-- A timed step that stays busy keeps DONE. -/
theorem sequencerStep_done_of_busy {p : Config.Params} {b : Block p.phaseTicks} (h : (sequencerStep p b).st ≠ .idle) :
    (sequencerStep p b).done = b.done := by
  rcases sequencerStep_cases p b with ⟨-, hq⟩ | ⟨-, -, hq⟩ | ⟨-, -, hq⟩ | ⟨-, -, hq⟩ | ⟨-, -, hq⟩ | ⟨-, -, -, hq⟩ |
    ⟨-, -, -, hq⟩
  case inr.inr.inr.inr.inr.inr => simp [hq] at h
  all_goals simp [hq]

/-- Before they are over the block is busy and keeps CMD and the flags. -/
theorem runRule_busy {p : Config.Params} (hN : 1 ≤ p.phaseTicks) {b : Block p.phaseTicks} {inputs : List Inputs}
    (h : inputs.length < cyclesLeft p b) :
    (runRule p b inputs).st ≠ .idle ∧ (runRule p b inputs).cmd = b.cmd ∧ (runRule p b inputs).done = b.done ∧
      (runRule p b inputs).inv = b.inv := by
  induction inputs generalizing b with
  | nil => exact ⟨busy_of_lt_cyclesLeft h, rfl, rfl, rfl⟩
  | cons i rest ih =>
    have hs := busy_of_lt_cyclesLeft h
    have hrest : rest.length < cyclesLeft p (sequencerStep p b) := by
      rw [cyclesLeft_eq_succ hN hs] at h
      exact Nat.lt_of_succ_lt_succ h
    have hdone := sequencerStep_done_of_busy (busy_of_lt_cyclesLeft hrest)
    rw [runRule_cons, ruleStep_quiet p b _ _ (.inl hs)]
    simpa [hdone] using ih hrest

/-- The invariant's timer bounds the cycles left (R166). -/
theorem cyclesLeft_le {p : Config.Params} {b : Block p.phaseTicks} (hN : 1 ≤ p.phaseTicks) (h : Inv p b) :
    cyclesLeft p b ≤ 82 * p.phaseTicks := by
  unfold cyclesLeft
  cases phaseIndex b with
  | none => exact Nat.zero_le _
  | some k =>
    have hk : (81 - k) * p.phaseTicks ≤ 81 * p.phaseTicks := Nat.mul_le_mul_right _ (Nat.sub_le 81 k)
    have ht := h.timer
    dsimp only
    omega

/-- Settles O39: the bound, the end of the send, and the cycles before it. -/
theorem everySendEnds : Obligations.EverySendEnds := by
  intro p b inputs hN hinv h
  refine ⟨cyclesLeft_le hN hinv, (lineTrace_linesLeft hN b inputs h).2, fun k hk => ?_⟩
  exact (runRule_busy hN (inputs := inputs.take k) (by rw [List.length_take]; omega)).1

end Sys2Proof.Machine
end

section
/-! SUPPORT. A send cycle by cycle (R135), the machine's run (R133), runs of requests (R167), and the host's protocol
(R88, R162). -/

namespace Sys2Proof.Machine

/-! ### A send, cycle by cycle -/

/-- Each entry of a list held for `n` places. -/
theorem flatMap_replicate_getElem? {α : Type} (l : List α) {n j : Nat} (hj : j < n) (i : Nat) :
    (l.flatMap (List.replicate n))[i * n + j]? = l[i]? := by
  induction l generalizing i with
  | nil => simp
  | cons a l ih =>
    rw [List.flatMap_cons]
    cases i with
    | zero => rw [List.getElem?_append_left (by simpa using hj)]; simp [hj]
    | succ i =>
      have hidx : (i + 1) * n + j - n = i * n + j := by rw [Nat.succ_mul]; omega
      rw [List.getElem?_append_right (by rw [List.length_replicate, Nat.succ_mul]; omega), List.length_replicate, hidx,
        ih, List.getElem?_cons_succ]

/-- The lines after `phase * N + tick` cycles of a send. -/
theorem sendTrace_getElem? (p : Config.Params) (cmd : Word) {phase tick : Nat} (ht : tick < p.phaseTicks) :
    (sendTrace p cmd)[phase * p.phaseTicks + tick]? = (sendPhases cmd)[phase]? :=
  flatMap_replicate_getElem? _ ht phase

theorem phase_tick_lt {N phase tick : Nat} (hphase : phase < 82) (htick : tick < N) : phase * N + tick < 82 * N := by
  have := Nat.mul_le_mul_right N (Nat.succ_le_of_lt hphase)
  rw [Nat.succ_mul] at this
  omega

/-- Settles O33: the lines off the trace of the send, the flags off the run while busy, and the end of the run. -/
theorem sendDrivesItsPhases : Obligations.SendDrivesItsPhases := by
  intro p b req cmd inputs hN hs henc hlen
  have hleft := cyclesLeft_beginSend hN cmd b
  refine ⟨fun phase tick hphase htick => ?_, ?_⟩
  · have hk := phase_tick_lt hphase htick
    generalize hkdef : phase * p.phaseTicks + tick = k at hk
    have hlines :
        (sendPhases cmd)[phase]? = some (lines (runRule p (ruleStep p false true req b) (inputs.take k))) := by
      have htrace := lineTrace_getElem? p b ((true, req) :: inputs) k (by rw [List.length_cons]; omega)
      rw [(lineTrace_accept hN hs henc hlen).1, List.getElem?_append_left (by rw [length_sendTrace]; exact hk), ← hkdef,
        sendTrace_getElem? p cmd htick, hkdef] at htrace
      exact htrace
    have hbusy := runRule_busy hN (b := beginSend cmd b) (inputs := inputs.take k) (by rw [List.length_take]; omega)
    rw [ruleStep_accept p hs henc] at hlines ⊢
    obtain ⟨hst, hcmd, hdone, hinv⟩ := hbusy
    exact ⟨hlines, (busy_eq_true_iff _).2 hst, hcmd, hdone, hinv⟩
  · rw [ruleStep_accept p hs henc, runRule_cyclesLeft hN (by simp) (hlen.trans hleft.symm)]
    rfl

/-! ### The machine's run -/

@[simp] theorem hostOf_append (a b : List Inputs) : hostOf (a ++ b) = hostOf a ++ hostOf b := List.map_append

@[simp] theorem length_hostOf (inputs : List Inputs) : (hostOf inputs).length = inputs.length := List.length_map _

theorem run_succ_of_step {s t : State} (h : step s = .next t) (k : Nat) :
    Host.Core.run core (k + 1) s = Host.Core.run core k t := by
  have hstep : core.step s = .next t := h
  simp only [Host.Core.run, hstep]

/-- Settles O35: each cycle of the host's list is one step of R133. -/
theorem machineRunIsRuleRun : Obligations.MachineRunIsRuleRun := by
  intro s inputs rest h
  induction inputs generalizing s with
  | nil => exact congrArg Host.Outcome.next (State.eq_of_parts rfl h)
  | cons i inputs ih =>
    obtain ⟨start, req⟩ := i
    have hstep := stepIsRule133 s false start req (by rw [currentEvent, h]; rfl)
    rw [List.length_cons, run_succ_of_step hstep]
    exact ih _ (by rw [h]; rfl)

/-- The machine after the first `k` cycles of such a host. -/
theorem run_take {s : State} {inputs : List Inputs} {rest : List HostEvent} (h : s.host = hostOf inputs ++ rest)
    {k : Nat} (hk : k ≤ inputs.length) :
    Host.Core.run core k s =
      .next { toBlock := runRule params s.toBlock (inputs.take k), host := hostOf (inputs.drop k) ++ rest } := by
  have hsplit : s.host = hostOf (inputs.take k) ++ (hostOf (inputs.drop k) ++ rest) := by
    rw [← List.append_assoc, ← hostOf_append, List.take_append_drop, h]
  have := machineRunIsRuleRun s _ _ hsplit
  rwa [List.length_take, Nat.min_eq_left hk] at this

/-- Settles O34: the machine's run is the rule's, which O33 gives cycle by cycle. -/
theorem machineSendsARequest : Obligations.MachineSendsARequest := by
  intro s req cmd inputs rest hs hhost henc hlen
  have hhost' : s.host = hostOf ((true, req) :: inputs) ++ rest := hhost
  obtain ⟨hphases, hend⟩ := sendDrivesItsPhases params s.toBlock req cmd inputs (by decide) hs henc hlen
  refine ⟨fun phase tick hphase htick => ?_, ?_⟩
  · have hk : phase * 35 + tick < 82 * 35 := phase_tick_lt hphase htick
    obtain ⟨hlines, hbusy, -, hdone, hinv⟩ := hphases phase tick hphase htick
    refine ⟨_, run_take hhost' (by rw [List.length_cons]; omega), ?_⟩
    rw [Nat.add_comm 1, List.take_succ_cons, runRule_cons]
    exact ⟨hlines, hbusy, hdone, hinv⟩
  · have hrun := machineRunIsRuleRun s _ _ hhost'
    rw [List.length_cons, hlen, runRule_cons, hend] at hrun
    exact hrun

/-! ### Runs of requests -/

/-- The block after a request presented to an idle block and the cycles of its send, if it is valid (R135, R143). -/
def requestEnd (p : Config.Params) (req : Word) (b : Block p.phaseTicks) : Block p.phaseTicks :=
  match encodeCommand p req with
  | none => raiseInvalidCommand b
  | some cmd => sentBlock p (beginSend cmd b)

theorem requestEnd_of_none {p : Config.Params} {req : Word} (h : encodeCommand p req = none) (b : Block p.phaseTicks) :
    requestEnd p req b = raiseInvalidCommand b := by
  simp only [requestEnd, h]

theorem requestEnd_of_some {p : Config.Params} {req cmd : Word} (h : encodeCommand p req = some cmd)
    (b : Block p.phaseTicks) : requestEnd p req b = sentBlock p (beginSend cmd b) := by
  simp only [requestEnd, h]

theorem requestEnd_idle {p : Config.Params} {b : Block p.phaseTicks} (req : Word) (hs : b.st = .idle)
    (hl : lines b = p.idleLines) : (requestEnd p req b).st = .idle ∧ lines (requestEnd p req b) = p.idleLines := by
  cases h : encodeCommand p req with
  | none => rw [requestEnd_of_none h]; exact ⟨hs, hl⟩
  | some cmd => rw [requestEnd_of_some h]; exact ⟨rfl, rfl⟩

theorem requestEnd_flags (p : Config.Params) (req : Word) (b : Block p.phaseTicks) :
    (requestEnd p req b).done = (encodeCommand p req).isSome ∧
      (requestEnd p req b).inv = (encodeCommand p req).isNone := by
  cases h : encodeCommand p req with
  | none => rw [requestEnd_of_none h]; exact ⟨rfl, rfl⟩
  | some cmd => rw [requestEnd_of_some h]; exact ⟨rfl, rfl⟩

/-- An idle block stays as it is while `start = 0`, whatever stands on `req` (R127). -/
theorem run_gap {p : Config.Params} {b : Block p.phaseTicks} (hs : b.st = .idle) (gap : List Word) :
    runRule p b (gap.map fun w => (false, w)) = b ∧
      lineTrace p b (gap.map fun w => (false, w)) = List.replicate gap.length (lines b) := by
  induction gap with
  | nil => exact ⟨rfl, rfl⟩
  | cons w gap ih =>
    have hstep : ruleStep p false false w b = b := by rw [ruleStep_quiet p b _ _ (.inr rfl), sequencerStep_idle p hs]
    rw [List.map_cons, runRule_cons, lineTrace, hstep, ih.1, ih.2]
    exact ⟨rfl, rfl⟩

/-- One request presented to an idle block, with its lines and the block at its end. -/
theorem run_presented {p : Config.Params} (hN : 1 ≤ p.phaseTicks) {b : Block p.phaseTicks} (hs : b.st = .idle)
    (hl : lines b = p.idleLines) {req : Word} {during : List Inputs}
    (hfits : during.length = if (encodeCommand p req).isSome then sendCycles p else 0) :
    runRule p b ((true, req) :: during) = requestEnd p req b ∧
      lineTrace p b ((true, req) :: during) = requestTrace p req := by
  cases h : encodeCommand p req with
  | none =>
    have hnil : during = [] := by simpa [h] using hfits
    have hstep : ruleStep p false true req b = raiseInvalidCommand b := by
      simp [ruleStep_eq, h, present_invalid p hs]
    rw [hnil, runRule_cons, lineTrace, hstep, requestEnd_of_none h]
    simp only [requestTrace, h]
    exact ⟨rfl, congrArg (fun l => [l]) hl⟩
  | some cmd =>
    have hlen : during.length = 82 * p.phaseTicks := by simpa [h, sendCycles] using hfits
    have hend := runRule_cyclesLeft hN (b := beginSend cmd b) (by simp)
      (hlen.trans (cyclesLeft_beginSend hN cmd b).symm)
    rw [(lineTrace_accept hN hs h hlen).1, runRule_cons, ruleStep_accept p hs h, hend, requestEnd_of_some h]
    simp only [requestTrace, h, and_self]

theorem run_request {p : Config.Params} (hN : 1 ≤ p.phaseTicks) {b : Block p.phaseTicks} (hs : b.st = .idle)
    (hl : lines b = p.idleLines) {r : RunRequest} (hfits : r.fits p) :
    runRule p b r.inputs = requestEnd p r.req b ∧ lineTrace p b r.inputs = r.trace p := by
  obtain ⟨hgap, hgaplines⟩ := run_gap hs r.gap
  obtain ⟨hrun, htrace⟩ := run_presented hN hs hl hfits
  rw [RunRequest.inputs, runRule_append, lineTrace_append, hgap, hgaplines, hrun, htrace, hl]
  exact ⟨rfl, rfl⟩

/-- The block after a list of request words, each presented to an idle block. -/
def runEnd (p : Config.Params) (b : Block p.phaseTicks) (reqs : List Word) : Block p.phaseTicks :=
  reqs.foldl (fun b req => requestEnd p req b) b

theorem runEnd_concat (p : Config.Params) (b : Block p.phaseTicks) (reqs : List Word) (req : Word) :
    runEnd p b (reqs ++ [req]) = requestEnd p req (runEnd p b reqs) := List.foldl_concat _ _ _ _

theorem runEnd_idle {p : Config.Params} {b : Block p.phaseTicks} (reqs : List Word) (hs : b.st = .idle)
    (hl : lines b = p.idleLines) : (runEnd p b reqs).st = .idle ∧ lines (runEnd p b reqs) = p.idleLines := by
  induction reqs generalizing b with
  | nil => exact ⟨hs, hl⟩
  | cons req reqs ih =>
    obtain ⟨hs', hl'⟩ := requestEnd_idle req hs hl
    exact ih hs' hl'

/-- R167 (a): request after request, each meets an idle block with idle lines. -/
theorem run_requests {p : Config.Params} (hN : 1 ≤ p.phaseTicks) {b : Block p.phaseTicks} (hs : b.st = .idle)
    (hl : lines b = p.idleLines) {requests : List RunRequest} (hfits : ∀ r ∈ requests, r.fits p) :
    runRule p b (requests.flatMap RunRequest.inputs) = runEnd p b (requests.map RunRequest.req) ∧
      lineTrace p b (requests.flatMap RunRequest.inputs) = requests.flatMap (RunRequest.trace p) := by
  induction requests generalizing b with
  | nil => exact ⟨rfl, rfl⟩
  | cons r requests ih =>
    obtain ⟨hr, hrest⟩ := List.forall_mem_cons.1 hfits
    obtain ⟨hrun, htrace⟩ := run_request hN hs hl hr
    obtain ⟨hs', hl'⟩ := requestEnd_idle r.req hs hl
    obtain ⟨hruns, htraces⟩ := ih hs' hl' hrest
    rw [List.flatMap_cons, runRule_append, lineTrace_append, hrun, htrace, hruns, htraces]
    exact ⟨rfl, rfl⟩

theorem runEnd_flags {p : Config.Params} (b : Block p.phaseTicks) {reqs : List Word} {req : Word}
    (h : reqs.getLast? = some req) :
    (runEnd p b reqs).done = (encodeCommand p req).isSome ∧ (runEnd p b reqs).inv = (encodeCommand p req).isNone := by
  obtain ⟨init, rfl⟩ := List.getLast?_eq_some_iff.1 h
  rw [runEnd_concat]
  exact requestEnd_flags p req _

/-- Settles O36: the run is that of its requests one after another, and the last one leaves the flags. -/
theorem runTraceIsItsSends : Obligations.RunTraceIsItsSends := by
  intro p b requests hN hs hl hfits
  obtain ⟨hrun, htrace⟩ := run_requests hN hs hl hfits
  refine ⟨htrace, ?_, fun r hr => ?_, fun hnil => by rw [hnil]; rfl⟩
  · rw [hrun]
    exact (runEnd_idle _ hs hl).1
  · rw [hrun]
    exact runEnd_flags b (by rw [List.getLast?_map, hr]; rfl)

/-! ### The host's protocol -/

/-- A request of the protocol: presented at once and followed by a silent send (log 16). -/
def protocolRequest (p : Config.Params) (req : Word) : RunRequest where
  gap := []
  req := req
  during := if (encodeCommand p req).isSome then List.replicate (sendCycles p) (false, 0x0000#16) else []

theorem protocolRequest_fits (p : Config.Params) (req : Word) : (protocolRequest p req).fits p := by
  unfold RunRequest.fits protocolRequest
  cases encodeCommand p req <;> simp

theorem requestCycles_eq (p : Config.Params) (req : Word) :
    requestCycles p req = hostOf (protocolRequest p req).inputs := by
  unfold requestCycles protocolRequest RunRequest.inputs hostOf
  cases encodeCommand p req <;> simp [quietEvent, sendCycles]

/-- The levels of the protocol's cycles after the reset. -/
def protocolInputs (p : Config.Params) (reqs : List Word) : List Inputs :=
  (reqs.map (protocolRequest p)).flatMap RunRequest.inputs

theorem hostScript_eq (p : Config.Params) (reqs : List Word) :
    hostScript p reqs = .cycle true false 0x0000#16 :: hostOf (protocolInputs p reqs) := by
  rw [hostScript, protocolInputs]
  congr 1
  induction reqs with
  | nil => rfl
  | cons req reqs ih => rw [List.flatMap_cons, ih, requestCycles_eq, List.map_cons, List.flatMap_cons, hostOf_append]

theorem run_protocolInputs {p : Config.Params} (hN : 1 ≤ p.phaseTicks) (reqs : List Word) :
    runRule p (Block.reset p) (protocolInputs p reqs) = runEnd p (Block.reset p) reqs ∧
      lineTrace p (Block.reset p) (protocolInputs p reqs) = reqs.flatMap (requestTrace p) := by
  have hfits : ∀ r ∈ reqs.map (protocolRequest p), r.fits p := by
    simp only [List.forall_mem_map]
    exact fun req _ => protocolRequest_fits p req
  obtain ⟨hrun, htrace⟩ := run_requests hN (reset_st p) rfl hfits
  have hreq : RunRequest.req ∘ protocolRequest p = id := rfl
  rw [List.map_map, hreq, List.map_id] at hrun
  refine ⟨hrun, htrace.trans ?_⟩
  rw [List.flatMap_map]
  rfl

/-- After a reset the requests leave CMD to the last valid one and the flags to the last one; the rest is as reset. -/
theorem runEnd_reset (p : Config.Params) (reqs : List Word) :
    runEnd p (Block.reset p) reqs =
      { Block.reset p with
        cmd := ((reqs.filterMap (encodeCommand p)).getLast?).getD 0x0000#16
        done := (reqs.getLast?.map fun r => (encodeCommand p r).isSome).getD false
        inv := (reqs.getLast?.map fun r => (encodeCommand p r).isNone).getD false } := by
  induction reqs using List.reverseRecOn with
  | nil => rfl
  | append_singleton reqs req ih =>
    rw [runEnd_concat, ih]
    cases h : encodeCommand p req with
    | none =>
      rw [requestEnd_of_none h]
      simp [h, raiseInvalidCommand, flagsInvalid]
    | some cmd =>
      rw [requestEnd_of_some h]
      simp [h, sentBlock, beginSend, enterPhase, setLines, flagsAccepted, Block.reset]

/-- The machine after the protocol's reset and the next `k` cycles. -/
theorem run_hostScript {s : State} {reqs : List Word} {rest : List HostEvent}
    (h : s.host = hostScript params reqs ++ rest) {k : Nat} (hk : k ≤ (protocolInputs params reqs).length) :
    Host.Core.run core (k + 1) s =
      .next { toBlock := runRule params (Block.reset params) ((protocolInputs params reqs).take k),
              host := hostOf ((protocolInputs params reqs).drop k) ++ rest } := by
  rw [hostScript_eq] at h
  have hstep := step_of_hard_reset (s := s) (start := false) (req := 0x0000#16) (by rw [currentEvent, h]; rfl)
  rw [run_succ_of_step hstep]
  exact run_take (by rw [h]; rfl) hk

/-- Settles O58: the reset, and then the run of the protocol's requests, cycle by cycle and at its end. -/
theorem hostProtocolRuns : Obligations.HostProtocolRuns := by
  intro s reqs rest h
  obtain ⟨hrun, htrace⟩ := run_protocolInputs (p := params) (by decide) reqs
  have hscript : (hostScript params reqs).length = (protocolInputs params reqs).length + 1 := by
    rw [hostScript_eq, List.length_cons, length_hostOf]
  refine ⟨?_, fun k hk => ⟨_, run_hostScript h (by omega), ?_⟩, ?_⟩
  · rw [hscript, ← htrace, List.length_cons, lineTrace_length]
  · cases k with
    | zero => rfl
    | succ k =>
      rw [List.getElem?_cons_succ, ← htrace]
      exact lineTrace_getElem? params _ _ k (by omega)
  · rw [hscript, run_hostScript h (Nat.le_refl _), List.take_length, List.drop_length, hrun, runEnd_reset]
    rfl

end Sys2Proof.Machine
end

section
/-! SUPPORT. The assembler: case folding (R85), the leading digits (R77), what PARSE gives for each kind of token (R76
to R82), and the round trip through the canonical text (R59). -/

namespace Sys2Proof.Machine

/-! ### Characters -/

/-- Case folding takes a small letter down to its capital (R85). -/
theorem toNat_upper (c : Char8) :
    (upper c).toNat = if 0x61 ≤ c.toNat ∧ c.toNat ≤ 0x7A then c.toNat - 0x20 else c.toNat := by
  unfold upper
  split
  next h => exact BitVec.toNat_sub_of_le (BitVec.le_def.2 (by simpa using h.1.trans' (by decide)))
  next => rfl

@[simp] theorem upper_upper (c : Char8) : upper (upper c) = upper c := by
  apply BitVec.eq_of_toNat_eq
  rw [toNat_upper, toNat_upper]
  grind

@[simp] theorem isDigit_upper (c : Char8) : isDigit (upper c) = isDigit c := by
  unfold isDigit
  rw [toNat_upper]
  grind

theorem upper_of_isDigit {c : Char8} (h : isDigit c = true) : upper c = c := by
  unfold isDigit at h
  unfold upper
  grind

@[simp] theorem houseOfChar_upper (c : Char8) : houseOfChar (upper c) = houseOfChar c := by
  simp only [houseOfChar, upper_upper]

/-- The letter of a house in either case (R73, R76). -/
theorem houseOfChar_of_letter {c : Char8} {house : BitVec 4}
    (h : c.toNat = 0x41 + house.toNat ∨ c.toNat = 0x61 + house.toNat) : houseOfChar c = some house := by
  have hup : (upper c).toNat = 0x41 + house.toNat := by
    rw [toNat_upper]
    split <;> omega
  simp only [houseOfChar, hup]
  rw [if_pos (by omega), Nat.add_sub_cancel_left, BitVec.ofNat_toNat, BitVec.setWidth_eq]

theorem houseOfChar_of_not_letter {c : Char8} (h : ¬ (0x41 ≤ c.toNat ∧ c.toNat ≤ 0x50))
    (h' : ¬ (0x61 ≤ c.toNat ∧ c.toNat ≤ 0x70)) : houseOfChar c = none := by
  refine if_neg ?_
  rw [toNat_upper]
  split <;> omega

/-! ### The leading digits -/

theorem map_upper_of_digits {digits : Token} (h : ∀ d ∈ digits, isDigit d = true) : digits.map upper = digits :=
  (List.map_congr_left fun d hd => upper_of_isDigit (h d hd)).trans (List.map_id digits)

@[simp] theorem leadingDigits_map_upper (rem : Token) : leadingDigits (rem.map upper) = leadingDigits rem := by
  have hcomp : isDigit ∘ upper = isDigit := funext isDigit_upper
  rw [leadingDigits, List.takeWhile_map, hcomp]
  exact map_upper_of_digits fun d hd => List.mem_takeWhile_imp hd

/-- A run of digits before a character that is none is the longest (R77). -/
theorem leadingDigits_append {digits rest : Token} (h : ∀ d ∈ digits, isDigit d = true)
    (h' : ∀ c, rest.head? = some c → isDigit c = false) : leadingDigits (digits ++ rest) = digits := by
  have hrest : rest.takeWhile isDigit = [] := by
    cases rest with
    | nil => rfl
    | cons c rest => exact List.takeWhile_cons_of_neg (by simp [h' c rfl])
  rw [leadingDigits, List.takeWhile_append_of_pos h, hrest, List.append_nil]

theorem unitOfDigits_of_range {digits : Token} (h : digits ≠ []) (h1 : 1 ≤ digitsValue digits)
    (h16 : digitsValue digits ≤ 16) : unitOfDigits digits = some (BitVec.ofNat 4 (digitsValue digits - 1)) :=
  if_pos ⟨h, h1, h16⟩

theorem unitOfDigits_eq_none {digits : Token}
    (h : digits = [] ∨ ¬ (1 ≤ digitsValue digits ∧ digitsValue digits ≤ 16)) : unitOfDigits digits = none :=
  if_neg fun ⟨hne, hrange⟩ => h.elim hne fun hout => hout hrange

/-! ### The three ways a token parses (R76, R78, R80) -/

theorem parse_of_no_house {first : Char8} (rem : Token) (h : houseOfChar first = none) :
    parse (first :: rem) = none := by
  simp only [parse, h]

theorem parse_of_unit {first : Char8} {rem : Token} {house unit : BitVec 4} (h : houseOfChar first = some house)
    (hu : unitOfDigits (leadingDigits rem) = some unit) :
    parse (first :: rem) = some ⟨house, some unit, if endsInOff (first :: rem) then .switchOff else .switchOn⟩ := by
  simp only [parse, h, hu]

theorem parse_of_no_unit {first : Char8} {rem : Token} {house : BitVec 4} (h : houseOfChar first = some house)
    (hu : unitOfDigits (leadingDigits rem) = none) : parse (first :: rem) = parseKeyword house rem := by
  simp only [parse, h, hu]

/-- Settles O52: no unit number, so the remainder is matched whole. -/
theorem keywordTokensParse : Obligations.KeywordTokensParse := by
  intro first house digits rest hletter hdigits hrest hout
  have hnone : unitOfDigits (leadingDigits (digits ++ rest)) = none := by
    rw [leadingDigits_append hdigits hrest, unitOfDigits_eq_none hout]
  exact parse_of_no_unit (houseOfChar_of_letter hletter) hnone

/-- A remainder that begins with a digit is no keyword. -/
theorem parseKeyword_of_digit {d : Char8} (h : isDigit d = true) (house : BitVec 4) (rem : Token) :
    parseKeyword house (d :: rem) = none := by
  have hd : upper d = d := upper_of_isDigit h
  have hD : d ≠ 0x44#8 := by rintro rfl; cases h
  have hB : d ≠ 0x42#8 := by rintro rfl; cases h
  simp [parseKeyword, keywordDim, keywordBright, hd, hD, hB]

/-- Settles O56: neither a unit nor a keyword. -/
theorem numberOutOfRangeIsInvalid : Obligations.NumberOutOfRangeIsInvalid := by
  intro first digits rest hne hdigits hrest hout
  cases h : houseOfChar first with
  | none => exact parse_of_no_house _ h
  | some house =>
    have hnone : unitOfDigits (leadingDigits (digits ++ rest)) = none := by
      rw [leadingDigits_append hdigits hrest, unitOfDigits_eq_none (.inr hout)]
    obtain ⟨d, digits, rfl⟩ := List.exists_cons_of_ne_nil hne
    rw [parse_of_no_unit h hnone]
    exact parseKeyword_of_digit (hdigits d List.mem_cons_self) house _

/-! ### Case and shape -/

@[simp] theorem map_upper_map_upper (token : Token) : (token.map upper).map upper = token.map upper := by simp

theorem endsInOff_map_upper (token : Token) : endsInOff (token.map upper) = endsInOff token := by
  simp [endsInOff, ← List.map_drop, Function.comp_def]

theorem parseKeyword_map_upper (house : BitVec 4) (rem : Token) :
    parseKeyword house (rem.map upper) = parseKeyword house rem := by
  simp only [parseKeyword, map_upper_map_upper]

/-- Settles O53: each test of a token folds the case first. -/
theorem parserIgnoresCase : Obligations.ParserIgnoresCase := by
  intro token
  cases token with
  | nil => rfl
  | cons first rem =>
    have hoff := endsInOff_map_upper (first :: rem)
    rw [List.map_cons] at hoff ⊢
    simp only [parse, houseOfChar_upper, leadingDigits_map_upper, parseKeyword_map_upper, hoff]

theorem admitted_of_parseKeyword {house : BitVec 4} {rem : Token} {t : Triple} (h : parseKeyword house rem = some t) :
    t.admitted = true := by
  unfold parseKeyword at h
  split at h
  · cases h; rfl
  · split at h
    · cases h; rfl
    · cases h

/-- The parser gives only the two shapes of R81. -/
theorem admitted_of_parse {token : Token} {t : Triple} (h : parse token = some t) : t.admitted = true := by
  cases token with
  | nil => cases h
  | cons first rem =>
    cases hhouse : houseOfChar first with
    | none => rw [parse_of_no_house rem hhouse] at h; cases h
    | some house =>
      cases hunit : unitOfDigits (leadingDigits rem) with
      | none => exact admitted_of_parseKeyword ((parse_of_no_unit hhouse hunit).symm.trans h)
      | some unit =>
        rw [parse_of_unit hhouse hunit] at h
        cases h
        cases endsInOff (first :: rem) <;> rfl

theorem assemble_of_parse {token : Token} {t : Triple} (h : parse token = some t) : assemble token = some (pack t) := by
  rw [assemble, h, Option.map_some]

/-- Settles O51: the shapes, the word of an admitted triple, and the tokens without a house. -/
theorem parserGivesAdmittedTriples : Obligations.ParserGivesAdmittedTriples := by
  refine ⟨fun token t h => ?_, rfl, fun first rem h h' => parse_of_no_house rem (houseOfChar_of_not_letter h h'),
    fun token h => by rw [assemble, h, Option.map_none]⟩
  obtain ⟨i, hwf, htriple, hword⟩ := exists_instr_of_admitted (admitted_of_parse h)
  exact ⟨admitted_of_parse h, assemble_of_parse h, i, hword ▸ decode_encode hwf, hwf, htriple⟩

/-! ### The test for OFF -/

theorem endsInOff_iff (token : Token) :
    endsInOff token = true ↔ 3 ≤ token.length ∧ (token.drop (token.length - 3)).map upper = keywordOff := by
  simp [endsInOff]

theorem endsInOff_iff_getElem? (token : Token) :
    endsInOff token = true ↔
      3 ≤ token.length ∧ (token[token.length - 3]?).map upper = some 0x4F#8 ∧
      (token[token.length - 2]?).map upper = some 0x46#8 ∧ (token[token.length - 1]?).map upper = some 0x46#8 := by
  rw [endsInOff_iff]
  refine and_congr_right fun hlen => ?_
  have h3 : (token.drop (token.length - 3)).length = 3 := by rw [List.length_drop]; omega
  obtain ⟨a, b, c, habc⟩ := List.length_eq_three.1 h3
  have hat (k : Nat) : token[token.length - 3 + k]? = [a, b, c][k]? := by rw [← habc, List.getElem?_drop]
  have ha := hat 0
  have hb := hat 1
  have hc := hat 2
  rw [show token.length - 3 + 1 = token.length - 2 by omega] at hb
  rw [show token.length - 3 + 2 = token.length - 1 by omega] at hc
  rw [Nat.add_zero] at ha
  simp [habc, ha, hb, hc, keywordOff]

/-- The test as one of the token's suffixes. -/
theorem endsInOff_iff_suffix (token : Token) :
    endsInOff token = true ↔ ∃ tail, tail <:+ token ∧ tail.map upper = keywordOff := by
  rw [endsInOff_iff]
  constructor
  · rintro ⟨-, h⟩
    exact ⟨_, List.drop_suffix _ _, h⟩
  · rintro ⟨tail, hsuffix, h⟩
    have hlen : tail.length = 3 := by simpa [keywordOff] using congrArg List.length h
    refine ⟨hlen ▸ hsuffix.length_le, ?_⟩
    rw [← hlen, ← List.suffix_iff_eq_drop.1 hsuffix, h]

/-- A digit is no letter of `OFF`. -/
theorem not_mem_of_map_upper_eq_off {tail : Token} (h : tail.map upper = keywordOff) {d : Char8}
    (hd : isDigit d = true) :
    d ∉ tail := by
  intro hmem
  have : d ∈ keywordOff := h ▸ upper_of_isDigit hd ▸ List.mem_map_of_mem hmem
  simp only [keywordOff, List.mem_cons, List.not_mem_nil, or_false] at this
  rcases this with rfl | rfl | rfl <;> cases hd

/-- A suffix that reaches over the last digit holds it, so the test sees only what follows the digits (R79). -/
theorem endsInOff_behind_digits (first : Char8) {digits : Token} (rest : Token) (hne : digits ≠ [])
    (hdigits : ∀ d ∈ digits, isDigit d = true) : endsInOff (first :: (digits ++ rest)) = endsInOff rest := by
  rw [Bool.eq_iff_iff, endsInOff_iff_suffix, endsInOff_iff_suffix]
  have hrest : digits.getLast hne :: rest <:+ first :: (digits ++ rest) := by
    refine ⟨first :: digits.dropLast, ?_⟩
    conv_rhs => rw [← List.dropLast_append_getLast hne]
    simp
  refine exists_congr fun tail => and_congr_left fun h => ⟨fun hsuffix => ?_, fun hsuffix => ?_⟩
  · rcases List.suffix_or_suffix_of_suffix hsuffix hrest with hin | hover
    · rcases List.suffix_cons_iff.1 hin with rfl | hin
      · exact absurd List.mem_cons_self (not_mem_of_map_upper_eq_off h (hdigits _ (List.getLast_mem hne)))
      · exact hin
    · exact absurd (hover.subset List.mem_cons_self)
        (not_mem_of_map_upper_eq_off h (hdigits _ (List.getLast_mem hne)))
  · exact hsuffix.trans ((List.suffix_cons _ _).trans hrest)

/-- Settles O55: the unit of the leading digits, and the test on the last three characters. -/
theorem offTestNeverReadsTheAddress : Obligations.OffTestNeverReadsTheAddress := by
  refine ⟨fun first house digits rest hletter hne hdigits hrest h1 h16 => ?_, endsInOff_iff_getElem?,
    fun first digits rest hne hdigits => endsInOff_behind_digits first rest hne hdigits⟩
  refine parse_of_unit (houseOfChar_of_letter hletter) ?_
  rw [leadingDigits_append hdigits hrest, unitOfDigits_of_range hne h1 h16]

/-! ### The canonical text -/

theorem isDigit_ofNat {k : Nat} (h : k < 10) : isDigit (BitVec.ofNat 8 (0x30 + k)) = true := by
  simp [isDigit]
  omega

/-- The decimal text of a number below 100 is a run of digits of its value. -/
theorem decimal_spec {n : Nat} (h : n < 100) :
    decimal n ≠ [] ∧ (∀ d ∈ decimal n, isDigit d = true) ∧ digitsValue (decimal n) = n := by
  unfold decimal
  split
  next hn =>
    refine ⟨nofun, by simpa using isDigit_ofNat hn, ?_⟩
    simp [digitsValue]
    omega
  next hn =>
    refine ⟨nofun, by simpa using ⟨isDigit_ofNat (k := n / 10) (by omega), isDigit_ofNat (k := n % 10) (by omega)⟩, ?_⟩
    simp [digitsValue]
    omega

theorem toNat_houseLetter {house : BitVec 5} (h : house.toNat < 16) :
    (houseLetter house).toNat = 0x41 + (house.setWidth 4).toNat := by
  simp [houseLetter, Nat.mod_eq_of_lt h]
  omega

/-- The canonical address of a unit, before any text that does not begin with a digit. -/
theorem parse_canonical_unit {house unit : BitVec 5} (hh : house.toNat < 16) (hu : unit.toNat < 16) {rest : Token}
    (hrest : ∀ c, rest.head? = some c → isDigit c = false) :
    parse (houseLetter house :: (decimal (unit.toNat + 1) ++ rest)) =
      some ⟨house.setWidth 4, some (unit.setWidth 4), if endsInOff rest then .switchOff else .switchOn⟩ := by
  obtain ⟨hne, hdigits, hvalue⟩ := decimal_spec (n := unit.toNat + 1) (by omega)
  have hparse := offTestNeverReadsTheAddress.1 (houseLetter house) (house.setWidth 4) _ rest
    (.inl (toNat_houseLetter hh)) hne hdigits hrest (by omega) (by omega)
  rw [hparse, hvalue, endsInOff_behind_digits _ rest hne hdigits, Nat.add_sub_cancel, BitVec.ofNat_toNat]

theorem parse_canonical_keyword {house : BitVec 5} (hh : house.toNat < 16) (rem : Token)
    (hrem : ∀ c, rem.head? = some c → isDigit c = false) :
    parse (houseLetter house :: rem) = parseKeyword (house.setWidth 4) rem :=
  keywordTokensParse _ _ [] rem (.inl (toNat_houseLetter hh)) (by simp) hrem (.inl rfl)

theorem parse_disassemble {i : Instr} (h : i.wellFormed = true) : parse (disassemble i) = some i.triple := by
  cases i with
  | switchOn house unit =>
    obtain ⟨hh, hu⟩ := (wellFormed_instrOfFields_iff .switchOn house unit).1 h
    exact parse_canonical_unit hh (hu rfl) (by rintro c ⟨⟩; rfl)
  | switchOff house unit =>
    obtain ⟨hh, hu⟩ := (wellFormed_instrOfFields_iff .switchOff house unit).1 h
    exact parse_canonical_unit hh (hu rfl) (by rintro c ⟨⟩; rfl)
  | bright house =>
    obtain ⟨hh, -⟩ := (wellFormed_instrOfFields_iff .bright house 0).1 h
    exact parse_canonical_keyword hh keywordBright (by rintro c ⟨⟩; rfl)
  | dim house =>
    obtain ⟨hh, -⟩ := (wellFormed_instrOfFields_iff .dim house 0).1 h
    exact parse_canonical_keyword hh keywordDim (by rintro c ⟨⟩; rfl)

/-- Settles O54: the text parses to the instruction's triple, whose word is the instruction's. -/
theorem assembleDisassemble : Obligations.AssembleDisassemble := fun i h => by
  rw [assemble_of_parse (parse_disassemble h), pack_triple h]

end Sys2Proof.Machine
end
